-- ==== Sys2Proof/Word.lean ====
section
/-!
DEFINITION. The widths of the block (spec/00_scope.md R5, R7; spec/30_encoding.md R51): bytes, 16-bit words, the 12-bit
address immediate, and the 4-bit fields that number a register or count sprite rows.
-/

namespace Sys2Proof

/-- A memory byte, a general register, a timer, the immediate `nn`: `XLEN` = 8 bits (R5). -/
abbrev Byte := BitVec 8

/-- An instruction word, I, PC, a stack entry: `ILEN` = `PCLEN` = 16 bits (R5, R50). -/
abbrev Word := BitVec 16

/-- The immediate `nnn`: 12 bits, unsigned (R51, R54). -/
abbrev Addr12 := BitVec 12

/-- A register number, 0 to 15: the fields `x` and `y`, all sixteen values legal (R10, R54). -/
abbrev Reg := Fin 16

/-- The sprite height `n`: a count, 0 to 15 (R51, R54). -/
abbrev Height := Fin 16

/-- The number of VF, the flag register (R9, R11). -/
abbrev flagReg : Reg := 15

end Sys2Proof
end

