-- ==== Sys2Proof/Config.lean ====
section
/-!
DEFINITION. What this implementation fixes (spec/00_scope.md R5) and the one free value of the spec, the random byte.
The 80 font bytes are a parameter with a default table; the table stands in Machine/Font.lean.
-/

namespace Sys2Proof.Config

/-- `MEM_SIZE`: addresses 0 to 4095 exist (R5, R30). -/
def memSize : Nat := 4096

/-- `STACK_DEPTH`, the most return addresses the stack holds (R5, R14, decision D1). -/
def stackDepth : Nat := 16

/-- `FONT_BASE`, the address of glyph 0 (R5). -/
def fontBase : Word := 0x000

/-- `GLYPH_BYTES`, bytes per glyph (R5). -/
def glyphBytes : Nat := 5

/-- `PROG_BASE`, the load address of the program and the reset value of PC (R5). -/
def progBase : Word := 0x200

/-- `ROM_MAX`, the largest ROM in bytes (R5, R141). -/
def romMax : Nat := 3584

/-- FREE VALUE (log entry 3). `Rnd`, the random source: draw number `k` is `rnd k`, a byte that nothing constrains
(spec/42_immediate_alu_random.md R104, decision D13). It has no body, so no proof can learn a value of it. -/
opaque rnd : Nat → Byte

end Sys2Proof.Config
end

