-- ==== Sys2Proof/Machine/Font.lean ====
section
/-!
DEFINITION. The parameter FONT (spec/00_scope.md R5, spec/20_memory.md R34): the spec's default table, 16 glyphs of 5 rows
(log entry 5). It stands beside the machine's operations because a different table is a different value of a parameter.
-/

namespace Sys2Proof.Machine

/-- Glyphs 0 to 7, five bytes each, rows top to bottom (R34). -/
def fontLow : List Byte :=
  [0xF0, 0x90, 0x90, 0x90, 0xF0, 0x20, 0x60, 0x20, 0x20, 0x70,
   0xF0, 0x10, 0xF0, 0x80, 0xF0, 0xF0, 0x10, 0xF0, 0x10, 0xF0,
   0x90, 0x90, 0xF0, 0x10, 0x10, 0xF0, 0x80, 0xF0, 0x10, 0xF0,
   0xF0, 0x80, 0xF0, 0x90, 0xF0, 0xF0, 0x10, 0x20, 0x40, 0x40]

/-- Glyphs 8 to F (R34). -/
def fontHigh : List Byte :=
  [0xF0, 0x90, 0xF0, 0x90, 0xF0, 0xF0, 0x90, 0xF0, 0x10, 0xF0,
   0xF0, 0x90, 0xF0, 0x90, 0x90, 0xE0, 0x90, 0xE0, 0x90, 0xE0,
   0xF0, 0x80, 0x80, 0x80, 0xF0, 0xE0, 0x90, 0x90, 0x90, 0xE0,
   0xF0, 0x80, 0xF0, 0x80, 0xF0, 0xF0, 0x80, 0xF0, 0x80, 0x80]

/-- FONT, 80 bytes; `FONT[5 d + r]` is row `r` of glyph `d` (R34). -/
def font : List Byte := fontLow ++ fontHigh

end Sys2Proof.Machine
end

