-- ==== Sys2Proof/Machine/State.lean ====
section
/-!
DEFINITION. The state of the machine: every piece the spec gives it (spec/10_state.md R10 to R23), as plain data, and its
value after reset (R23, R170). One field, `draws`, is the model's own (log entry 3).
-/

namespace Sys2Proof.Machine

/-- The four kinds of fault a step can raise (spec/60_exceptions.md R150). A step that raises one takes the entry the spec
describes (R155): its outcome is a NEXT state with FAULT written, so no step of this model answers the host's `fault` with
one of these (log entry 1). Nothing is unsafe in that: the next state is the one the spec states, and it is halted. -/
inductive Fault where
  /-- Raised by the fetch when PC + 1 >= 4096, and by `DXYN`, `FX33`, `FX55`, `FX65` when the last byte of their range lies
  at 4096 or above (R151, R152). Safe: the spec's own fault. -/
  | outOfBounds
  /-- Raised by decode for the words that match no row of the opcode map (R153). Safe: the spec's own fault. -/
  | unknownOpcode
  /-- Raised by `00EE` with SP = 0 (R154). Safe: the spec's own fault. -/
  | stackUnderflow
  /-- Raised by `2NNN` with SP = 16 (R154). Safe: the spec's own fault. -/
  | stackOverflow
  deriving DecidableEq, Repr

/-- Why an instruction has no meaning in this model. -/
inductive Refusal where
  /-- Answered only by an arm of `exec` whose instruction has not been given its meaning. Safe: nothing follows a refusal. -/
  | notModelled (mnemonic : String)
  deriving DecidableEq, Repr

/-- FAULT, the fault record (R19): `kind` is `none` for the spec's None; `pc` is the address of the faulting instruction;
`opcode` is its word, 0 when the fetch itself faulted. -/
structure FaultRecord where
  kind : Option Fault
  pc : Word
  opcode : Word
  deriving DecidableEq, Repr

/-- FAULT with nothing recorded: kind None, pc 0, opcode 0 (R19, R23). -/
def FaultRecord.clear : FaultRecord := { kind := none, pc := 0, opcode := 0 }

/-- FB: 32 rows of 64 one-bit pixels; bit `x` of row `y` is the pixel at column `x`, 1 = on (R17, log entry 11). -/
abbrev Framebuffer := Vector (BitVec 64) 32

/-- The whole state of the core. -/
structure State where
  /-- V[0] to V[15], VF = V[15] (R10, R11). -/
  v : Vector Byte 16
  /-- I, the index register (R12). -/
  i : Word
  /-- PC, the program counter (R13). -/
  pc : Word
  /-- STACK[0] to STACK[15], entries at SP and above kept as last written (R14). -/
  stack : Vector Word 16
  /-- SP, the number of stack entries in use, 0 to 16 (R14, log entry 10). -/
  sp : Fin 17
  /-- DT, the delay timer (R15). -/
  dt : Byte
  /-- ST, the sound timer (R15). -/
  st : Byte
  /-- KEY[0] to KEY[15], true = pressed (R16). -/
  key : Vector Bool 16
  /-- FB, the framebuffer (R17). -/
  fb : Framebuffer
  /-- MEM (R18): the addresses whose byte differs from its value after reset, rising, with their bytes. -/
  mem : List Host.Cell
  /-- FAULT (R19). -/
  fault : FaultRecord
  /-- The model's own field, no state of the spec: how many random bytes have been drawn (log entry 3). -/
  draws : Nat
  deriving DecidableEq, Repr

/-- The machine right after reset (R23, R170): memory holds its reset contents, so the list of differences is empty. -/
def State.reset : State where
  v := Vector.replicate 16 0
  i := 0
  pc := Config.progBase
  stack := Vector.replicate 16 0
  sp := 0
  dt := 0
  st := 0
  key := Vector.replicate 16 false
  fb := Vector.replicate 32 0
  mem := []
  fault := FaultRecord.clear
  draws := 0

end Sys2Proof.Machine
end

