-- ==== Sys2Proof/Machine/Memory.lean ====
section
/-!
DEFINITION. MEM as a list of cells in one canonical form (spec/20_memory.md R30 to R39). A memory lists the addresses whose
byte differs from the reset contents, in rising order; every other address reads as its reset contents.
-/

namespace Sys2Proof.Machine

/-- What an address the list does not hold reads as: the reset contents, FONT at 0x000 to 0x04F and 0 elsewhere (R31, R35). -/
def Memory.unlisted (a : Nat) : Byte := font.getD a 0

/-- The byte at an address (R39). Only addresses below 4096 exist; whoever reads has checked that (R36). -/
def Memory.read (m : List Host.Cell) (a : Nat) : Byte :=
  match m.find? (fun c => c.1 == a) with
  | some c => c.2
  | none => Memory.unlisted a

/-- Put a cell in its place in a rising list that does not hold its address. -/
def Memory.insertCell (a : Nat) (b : Byte) : List Host.Cell → List Host.Cell
  | [] => [(a, b)]
  | c :: m => if a < c.1 then (a, b) :: c :: m else c :: Memory.insertCell a b m

/-- Store a byte: the addressed byte changes and no other (R39). A byte equal to the reset contents is not listed. -/
def Memory.write (m : List Host.Cell) (a : Nat) (b : Byte) : List Host.Cell :=
  let others := m.filter (fun c => c.1 != a)
  if b = Memory.unlisted a then others else Memory.insertCell a b others

/-- Store bytes at ascending addresses from `a` (R37). -/
def Memory.writeAll (m : List Host.Cell) (a : Nat) : List Byte → List Host.Cell
  | [] => m
  | b :: bs => Memory.writeAll (Memory.write m a b) (a + 1) bs

/-- The `len` bytes at ascending addresses from `a` (R37). -/
def Memory.readAll (m : List Host.Cell) (a len : Nat) : List Byte :=
  (List.range len).map (fun k => Memory.read m (a + k))

/-- The canonical form: addresses rising, all of them inside the address space, none listed with its reset contents. -/
abbrev Memory.wf (m : List Host.Cell) : Prop :=
  m.Pairwise (fun c d => c.1 < d.1) ∧ ∀ c ∈ m, c.1 < Config.memSize ∧ c.2 ≠ Memory.unlisted c.1

end Sys2Proof.Machine
end

