-- ==== Sys2Proof/Machine/Ops.lean ====
section
/-!
DEFINITION. The named operations over registers, memory, stack and PC that the meanings share (spec/00_scope.md R8), and
taking a fault (spec/60_exceptions.md R155). The hardware has no return from a fault (R160); only `construct` and a successful
`load` clear FAULT (Machine/HostOps.lean).

A meaning runs at the state BEFORE the fetch's advance: `s.pc` is `pc0`, and `npc` is `pc0 + 2` (log entry 7). A raise then
has nothing to undo.
-/

namespace Sys2Proof.Machine

/-- What a meaning answers. -/
abbrev Result := Host.Outcome State Fault Refusal

/-- `V[x]` (R8, R10). -/
def State.reg (s : State) (x : Reg) : Byte := s.v.get x

/-- `V[x] <- b` (R8, R10). -/
def State.setReg (s : State) (x : Reg) (b : Byte) : State := { s with v := s.v.set x b }

/-- The byte at an address (R8, R39). -/
def State.byteAt (s : State) (a : Nat) : Byte := Memory.read s.mem a

/-- Store bytes at ascending addresses from `a` (R8, R37). -/
def State.storeBytes (s : State) (a : Nat) (bs : List Byte) : State := { s with mem := Memory.writeAll s.mem a bs }

/-- `npc = pc0 + 2`, the address of the next sequential instruction (R8, R13). -/
def State.npc (s : State) : Word := s.pc + 2

/-- `pc <- target` (R8). -/
def State.setPc (s : State) (target : Word) : State := { s with pc := target }

/-- End with `pc = npc` (R8, R73). -/
def State.advance (s : State) : State := s.setPc s.npc

/-- End a skip instruction: `pc <- npc + 2` when the comparison holds, else `pc = npc` (spec/41_control_flow.md R80). -/
def State.skipIf (s : State) (taken : Bool) : State := s.setPc (if taken then s.npc + 2 else s.npc)

/-- The core is halted: a fault is recorded (spec/40_step_cycle.md R76). -/
def State.halted (s : State) : Bool := s.fault.kind.isSome

/-- TAKING A FAULT (R155): FAULT records the kind, the address of the faulting instruction and its word (log entry 8);
nothing else changes, so PC stays `pc0`; with `kind` no longer None the core is halted. -/
def raise (kind : Fault) (opcode : Word) (s : State) : Result :=
  .next { s with fault := { kind := some kind, pc := s.pc, opcode := opcode } }

/-- `Push(v)` (R14): none when 16 entries are in use. -/
def State.push (s : State) (v : Word) : Option State :=
  if h : s.sp.val < 16 then
    some { s with stack := s.stack.set s.sp.val v, sp := ⟨s.sp.val + 1, by omega⟩ }
  else none

/-- `Pop()` (R14): none when the stack is empty; the entry popped keeps its value. -/
def State.pop (s : State) : Option (Word × State) :=
  if h : 0 < s.sp.val then
    some (s.stack.get ⟨s.sp.val - 1, by omega⟩, { s with sp := ⟨s.sp.val - 1, by omega⟩ })
  else none

/-- `KEY[k]` (R8, R16). -/
def State.pressed (s : State) (k : Reg) : Bool := s.key.get k

/-- The least pressed key, if any key is pressed (spec/45_keypad_timers.md R134). -/
def State.firstPressed (s : State) : Option Reg := (List.finRange 16).find? (fun k => s.pressed k)

/-- `FB[row][col]` of a framebuffer (R8, R17). -/
def pixelOf (fb : Framebuffer) (row : Fin 32) (col : Fin 64) : Bool := (fb.get row).getLsbD col.val

/-- `FB[row][col] <- FB[row][col] xor 1` (spec/44_display.md R122). -/
def togglePixel (fb : Framebuffer) (row : Fin 32) (col : Fin 64) : Framebuffer :=
  fb.set row (fb.get row ^^^ BitVec.twoPow 64 col.val)

/-- `FB[row][col]` (R8, R17). -/
def State.pixel (s : State) (row : Fin 32) (col : Fin 64) : Bool := pixelOf s.fb row col

end Sys2Proof.Machine
end

