-- ==== Sys2Proof/Machine/Flags.lean ====
section
/-!
DEFINITION. Every flag computation of the instruction set (spec/10_state.md R11, spec/42_immediate_alu_random.md R97 to R101)
and the order of the two writes of a flag-writing instruction (R90). The collision flag is computed by the draw itself
(Machine/Display.lean).
-/

namespace Sys2Proof.Machine

/-- A flag as VF holds it: exactly 0 or 1 (R11, R102). -/
def flagByte (b : Bool) : Byte := if b then 1 else 0

/-- Carry of an addition: the exact sum exceeds 255 (R97). -/
def carryFlag (a b : Byte) : Bool := 255 < a.toNat + b.toNat

/-- The flag of `a - b`: `a > b`, strict, so equal operands give 0 (R98, R100, conflict C1). -/
def greaterFlag (a b : Byte) : Bool := b.toNat < a.toNat

/-- The bit a right shift moves out, bit 0 (R99). -/
def shiftedOutRight (a : Byte) : Bool := a.getLsbD 0

/-- The bit a left shift moves out, bit 7 (R101). -/
def shiftedOutLeft (a : Byte) : Bool := a.getLsbD 7

/-- `V[x] <- result`, then `VF <- flag`: with `x = 15` the flag wins (R90, decision D8). -/
def State.writeWithFlag (s : State) (x : Reg) (result : Byte) (flag : Bool) : State :=
  (s.setReg x result).setReg flagReg (flagByte flag)

end Sys2Proof.Machine
end

