-- ==== Sys2Proof/Machine/Operands.lean ====
section
/-!
DEFINITION. Every operand form of the instruction set (spec/30_encoding.md R54): immediates as they stand, registers, the low
nibble of a register, and bytes of memory at I plus a small constant (spec/20_memory.md R33).
-/

namespace Sys2Proof.Machine

/-- `zext_16(nnn)`, the 12-bit immediate as an address (R54). -/
def zextAddr (nnn : Addr12) : Word := nnn.setWidth 16

/-- `zext_16(b)`, a register's value as an addend of PC or I (R88, R112). -/
def zextByte (b : Byte) : Word := b.setWidth 16

/-- `V[x][3:0]`, the key or hex digit a register names (R113, R130, decision D11). -/
def lowNibble (b : Byte) : Reg := (b.extractLsb' 0 4).toFin

/-- The address of byte `k` of an access from I, on unbounded integers (R33, R110). -/
def State.addressAt (s : State) (k : Nat) : Nat := s.i.toNat + k

/-- `I + k >= 4096`: byte `k` of an access lies outside memory (R36). -/
def State.outside (s : State) (k : Nat) : Bool := Config.memSize ≤ s.addressAt k

/-- The bytes of V[0] to V[x], ascending (R115). -/
def State.regsUpTo (s : State) (x : Reg) : List Byte :=
  ((List.finRange 16).filter (· ≤ x)).map s.reg

/-- V[0] to V[x] loaded from I to I + x, ascending; the registers above keep their values (R116). -/
def State.loadRegsUpTo (s : State) (x : Reg) : State :=
  { s with v := Vector.ofFn fun k => if k ≤ x then s.byteAt (s.addressAt k.val) else s.reg k }

/-- The three decimal digits of a byte, hundreds first (R114). -/
def decimalDigits (b : Byte) : List Byte :=
  [BitVec.ofNat 8 (b.toNat / 100), BitVec.ofNat 8 (b.toNat / 10 % 10), BitVec.ofNat 8 (b.toNat % 10)]

/-- The `n` sprite bytes at I, row 0 first (R122). -/
def State.spriteBytes (s : State) (n : Height) : List Byte := Memory.readAll s.mem s.i.toNat n.val

end Sys2Proof.Machine
end

