-- ==== Sys2Proof/Machine/Alu.lean ====
section
/-!
DEFINITION. Immediate, register-to-register and random instructions (spec/42_immediate_alu_random.md R90 to R104). Every
one ends with PC = npc and none can fault. Sources are read from the state before the instruction (R90).
-/

namespace Sys2Proof.Machine

/-- A move or logic instruction: `V[x] <- result`, VF untouched unless `x = 15`, PC = npc (R90, decision D9). -/
def State.finishMove (s : State) (x : Reg) (result : Byte) : State := (s.setReg x result).advance

/-- A flag-writing instruction: `V[x] <- result`, then `VF <- flag`, PC = npc (R90). -/
def State.finishFlag (s : State) (x : Reg) (result : Byte) (flag : Bool) : State :=
  (s.writeWithFlag x result flag).advance

/-- `6XNN` (R91). -/
def execLdVxNn (x : Reg) (nn : Byte) (s : State) : Result := .next (s.finishMove x nn)

/-- `7XNN` (R92): the sum mod 256, no flag. -/
def execAddVxNn (x : Reg) (nn : Byte) (s : State) : Result := .next (s.finishMove x (s.reg x + nn))

/-- `8XY0` (R93). -/
def execLdVxVy (x y : Reg) (s : State) : Result := .next (s.finishMove x (s.reg y))

/-- `8XY1` (R94). -/
def execOr (x y : Reg) (s : State) : Result := .next (s.finishMove x (s.reg x ||| s.reg y))

/-- `8XY2` (R95). -/
def execAnd (x y : Reg) (s : State) : Result := .next (s.finishMove x (s.reg x &&& s.reg y))

/-- `8XY3` (R96). -/
def execXor (x y : Reg) (s : State) : Result := .next (s.finishMove x (s.reg x ^^^ s.reg y))

/-- `8XY4` (R97): the sum mod 256, VF = carry. -/
def execAddVxVy (x y : Reg) (s : State) : Result :=
  .next (s.finishFlag x (s.reg x + s.reg y) (carryFlag (s.reg x) (s.reg y)))

/-- `8XY5` (R98): the difference mod 256, VF = `V[x] > V[y]`. -/
def execSub (x y : Reg) (s : State) : Result :=
  .next (s.finishFlag x (s.reg x - s.reg y) (greaterFlag (s.reg x) (s.reg y)))

/-- `8XY6` (R99): V[x] halved in place, VF = the bit moved out; `y` is not read (decision D7). -/
def execShr (x _y : Reg) (s : State) : Result :=
  .next (s.finishFlag x (s.reg x >>> 1) (shiftedOutRight (s.reg x)))

/-- `8XY7` (R100): the reversed difference mod 256, VF = `V[y] > V[x]`. -/
def execSubn (x y : Reg) (s : State) : Result :=
  .next (s.finishFlag x (s.reg y - s.reg x) (greaterFlag (s.reg y) (s.reg x)))

/-- `8XYE` (R101): V[x] doubled mod 256 in place, VF = the bit moved out; `y` is not read (decision D7). -/
def execShl (x _y : Reg) (s : State) : Result :=
  .next (s.finishFlag x (s.reg x <<< 1) (shiftedOutLeft (s.reg x)))

/-- The effect of `CXNN` for a draw `r` (R103): `V[x] <- r and nn`; one byte has been drawn. -/
def State.finishRandom (s : State) (x : Reg) (nn r : Byte) : State :=
  { s.finishMove x (r &&& nn) with draws := s.draws + 1 }

/-- `CXNN` (R103, R104): the draw is the next free value (log entry 3). -/
def execRnd (x : Reg) (nn : Byte) (s : State) : Result := .next (s.finishRandom x nn (Config.rnd s.draws))

end Sys2Proof.Machine
end

