-- ==== Sys2Proof/Syntax.lean ====
section
/-!
DEFINITION. The 34 instructions of the opcode map (spec/30_encoding.md R56), one constructor per row of
spec/opcode_table.json, in the table's order. Operands are typed by the width of their field, so every value of a field is
an operand and no other value can be written (R54).
-/

namespace Sys2Proof

/-- An instruction. `x`, `y` are register numbers, `nn` an 8-bit and `nnn` a 12-bit immediate, `n` a sprite height. -/
inductive Instr where
  /-- `00E0` clear screen (R121). -/
  | cls
  /-- `00EE` return from subroutine (R81). -/
  | ret
  /-- `1NNN` jump (R82). -/
  | jp (nnn : Addr12)
  /-- `2NNN` call subroutine (R83). -/
  | call (nnn : Addr12)
  /-- `3XNN` skip if V[x] = nn (R84). -/
  | seVxNn (x : Reg) (nn : Byte)
  /-- `4XNN` skip if V[x] differs from nn (R85). -/
  | sneVxNn (x : Reg) (nn : Byte)
  /-- `5XY0` skip if V[x] = V[y] (R86). -/
  | seVxVy (x y : Reg)
  /-- `6XNN` set register to immediate (R91). -/
  | ldVxNn (x : Reg) (nn : Byte)
  /-- `7XNN` add immediate, no flag (R92). -/
  | addVxNn (x : Reg) (nn : Byte)
  /-- `8XY0` copy register (R93). -/
  | ldVxVy (x y : Reg)
  /-- `8XY1` bitwise OR (R94). -/
  | or (x y : Reg)
  /-- `8XY2` bitwise AND (R95). -/
  | and (x y : Reg)
  /-- `8XY3` bitwise exclusive OR (R96). -/
  | xor (x y : Reg)
  /-- `8XY4` add with carry flag (R97). -/
  | addVxVy (x y : Reg)
  /-- `8XY5` subtract, VF = strictly greater (R98). -/
  | sub (x y : Reg)
  /-- `8XY6` shift right by one; `y` is kept from the encoding and ignored (R99, log entry 15). -/
  | shr (x y : Reg)
  /-- `8XY7` reverse subtract (R100). -/
  | subn (x y : Reg)
  /-- `8XYE` shift left by one; `y` is kept from the encoding and ignored (R101, log entry 15). -/
  | shl (x y : Reg)
  /-- `9XY0` skip if V[x] differs from V[y] (R87). -/
  | sneVxVy (x y : Reg)
  /-- `ANNN` set index register (R111). -/
  | ldINnn (nnn : Addr12)
  /-- `BNNN` jump to nnn + V[0] (R88). -/
  | jpV0 (nnn : Addr12)
  /-- `CXNN` random byte under mask (R103). -/
  | rnd (x : Reg) (nn : Byte)
  /-- `DXYN` draw sprite (R122). -/
  | drw (x y : Reg) (n : Height)
  /-- `EX9E` skip if key pressed (R131). -/
  | skp (x : Reg)
  /-- `EXA1` skip if key not pressed (R132). -/
  | sknp (x : Reg)
  /-- `FX07` read delay timer (R133). -/
  | ldVxDt (x : Reg)
  /-- `FX0A` wait for a key (R134). -/
  | ldVxK (x : Reg)
  /-- `FX15` set delay timer (R135). -/
  | ldDtVx (x : Reg)
  /-- `FX18` set sound timer (R136). -/
  | ldStVx (x : Reg)
  /-- `FX1E` add register to index (R112). -/
  | addIVx (x : Reg)
  /-- `FX29` load font-digit address (R113). -/
  | ldFVx (x : Reg)
  /-- `FX33` store decimal digits (R114). -/
  | ldBVx (x : Reg)
  /-- `FX55` store register range (R115). -/
  | ldMemVx (x : Reg)
  /-- `FX65` load register range (R116). -/
  | ldVxMem (x : Reg)
  deriving DecidableEq, Repr

/-- The row of spec/opcode_table.json a constructor stands for, by its mnemonic there (R59). -/
def Instr.mnemonic : Instr → String
  | .cls => "CLS"
  | .ret => "RET"
  | .jp _ => "JP"
  | .call _ => "CALL"
  | .seVxNn _ _ => "SE_VX_NN"
  | .sneVxNn _ _ => "SNE_VX_NN"
  | .seVxVy _ _ => "SE_VX_VY"
  | .ldVxNn _ _ => "LD_VX_NN"
  | .addVxNn _ _ => "ADD_VX_NN"
  | .ldVxVy _ _ => "LD_VX_VY"
  | .or _ _ => "OR"
  | .and _ _ => "AND"
  | .xor _ _ => "XOR"
  | .addVxVy _ _ => "ADD_VX_VY"
  | .sub _ _ => "SUB"
  | .shr _ _ => "SHR"
  | .subn _ _ => "SUBN"
  | .shl _ _ => "SHL"
  | .sneVxVy _ _ => "SNE_VX_VY"
  | .ldINnn _ => "LD_I_NNN"
  | .jpV0 _ => "JP_V0"
  | .rnd _ _ => "RND"
  | .drw _ _ _ => "DRW"
  | .skp _ => "SKP"
  | .sknp _ => "SKNP"
  | .ldVxDt _ => "LD_VX_DT"
  | .ldVxK _ => "LD_VX_K"
  | .ldDtVx _ => "LD_DT_VX"
  | .ldStVx _ => "LD_ST_VX"
  | .addIVx _ => "ADD_I_VX"
  | .ldFVx _ => "LD_F_VX"
  | .ldBVx _ => "LD_B_VX"
  | .ldMemVx _ => "LD_MEM_VX"
  | .ldVxMem _ => "LD_VX_MEM"

end Sys2Proof
end

