-- ==== Sys2Proof/WellFormed.lean ====
section
/-!
DEFINITION. What the block accepts. An `Instr` needs no check of its own: each operand's type is exactly its field (R54, log
entry 17). What can be ill-formed is a 16-bit word (it may match no row of the opcode map, spec/30_encoding.md R55 to R57) and
a ROM (it may be longer than memory above 0x200, spec/46_host_operations.md R141). The opcode map is written here as the
table of masks and matches; Decode.lean reads words by their fields, and the two are compared by a statement.
-/

namespace Sys2Proof

/-- One row of the opcode map: a word `w` is the row's instruction when `w &&& mask = pattern` (R55, R56). -/
structure OpcodeRow where
  mnemonic : String
  mask : Word
  pattern : Word
  deriving DecidableEq, Repr

/-- Rows `00E0` to `9XY0` of the opcode map (R56). -/
def opcodeMapLow : List OpcodeRow :=
  [
   ⟨"CLS", 0xFFFF#16, 0x00E0#16⟩,
   ⟨"RET", 0xFFFF#16, 0x00EE#16⟩,
   ⟨"JP", 0xF000#16, 0x1000#16⟩,
   ⟨"CALL", 0xF000#16, 0x2000#16⟩,
   ⟨"SE_VX_NN", 0xF000#16, 0x3000#16⟩,
   ⟨"SNE_VX_NN", 0xF000#16, 0x4000#16⟩,
   ⟨"SE_VX_VY", 0xF00F#16, 0x5000#16⟩,
   ⟨"LD_VX_NN", 0xF000#16, 0x6000#16⟩,
   ⟨"ADD_VX_NN", 0xF000#16, 0x7000#16⟩,
   ⟨"LD_VX_VY", 0xF00F#16, 0x8000#16⟩,
   ⟨"OR", 0xF00F#16, 0x8001#16⟩,
   ⟨"AND", 0xF00F#16, 0x8002#16⟩,
   ⟨"XOR", 0xF00F#16, 0x8003#16⟩,
   ⟨"ADD_VX_VY", 0xF00F#16, 0x8004#16⟩,
   ⟨"SUB", 0xF00F#16, 0x8005#16⟩,
   ⟨"SHR", 0xF00F#16, 0x8006#16⟩,
   ⟨"SUBN", 0xF00F#16, 0x8007#16⟩,
   ⟨"SHL", 0xF00F#16, 0x800E#16⟩,
   ⟨"SNE_VX_VY", 0xF00F#16, 0x9000#16⟩]

/-- Rows `ANNN` to `FX65` of the opcode map (R56). -/
def opcodeMapHigh : List OpcodeRow :=
  [
   ⟨"LD_I_NNN", 0xF000#16, 0xA000#16⟩,
   ⟨"JP_V0", 0xF000#16, 0xB000#16⟩,
   ⟨"RND", 0xF000#16, 0xC000#16⟩,
   ⟨"DRW", 0xF000#16, 0xD000#16⟩,
   ⟨"SKP", 0xF0FF#16, 0xE09E#16⟩,
   ⟨"SKNP", 0xF0FF#16, 0xE0A1#16⟩,
   ⟨"LD_VX_DT", 0xF0FF#16, 0xF007#16⟩,
   ⟨"LD_VX_K", 0xF0FF#16, 0xF00A#16⟩,
   ⟨"LD_DT_VX", 0xF0FF#16, 0xF015#16⟩,
   ⟨"LD_ST_VX", 0xF0FF#16, 0xF018#16⟩,
   ⟨"ADD_I_VX", 0xF0FF#16, 0xF01E#16⟩,
   ⟨"LD_F_VX", 0xF0FF#16, 0xF029#16⟩,
   ⟨"LD_B_VX", 0xF0FF#16, 0xF033#16⟩,
   ⟨"LD_MEM_VX", 0xF0FF#16, 0xF055#16⟩,
   ⟨"LD_VX_MEM", 0xF0FF#16, 0xF065#16⟩]

/-- The opcode map, 34 rows (R56). -/
def opcodeMap : List OpcodeRow := opcodeMapLow ++ opcodeMapHigh

/-- A word selects a row (R55). -/
def OpcodeRow.selects (r : OpcodeRow) (w : Word) : Bool := w &&& r.mask == r.pattern

/-- A word is legal when some row of the opcode map selects it; every other word is illegal (R55, R57). -/
def legalWord (w : Word) : Bool := opcodeMap.any (·.selects w)

/-- A ROM that `load` accepts: at most 3584 bytes (R141). -/
def romFits (rom : List Byte) : Bool := rom.length ≤ Config.romMax

end Sys2Proof
end

