-- ==== Sys2Proof/Decode.lean ====
section
/-!
DEFINITION. The decoder, total on any bytes and rejecting by name (spec/30_encoding.md R50 to R57), and the encoder written
from the same format table (R52). The fields are cut out here, once; no meaning sees a raw encoding.
-/

namespace Sys2Proof

/-- The word of two bytes in address order: the byte at the lower address holds bits 15 to 8 (R32, R50). -/
def wordOfBytes (hi lo : Byte) : Word := hi ++ lo

/-- The byte of a word that lies at the lower address (R50). -/
def highByte (op : Word) : Byte := op.extractLsb' 8 8

/-- The byte of a word that lies at the higher address (R50). -/
def lowByte (op : Word) : Byte := op.extractLsb' 0 8

/-- `fam = op[15:12]`, the primary opcode family (R51). -/
def famOf (op : Word) : Fin 16 := (op.extractLsb' 12 4).toFin

/-- `x = op[11:8]` (R51). -/
def xOf (op : Word) : Reg := (op.extractLsb' 8 4).toFin

/-- `y = op[7:4]` (R51). -/
def yOf (op : Word) : Reg := (op.extractLsb' 4 4).toFin

/-- `n = op[3:0]` (R51). -/
def nOf (op : Word) : Height := (op.extractLsb' 0 4).toFin

/-- `nn = op[7:0]` (R51). -/
def nnOf (op : Word) : Byte := op.extractLsb' 0 8

/-- `nnn = op[11:0]` (R51). -/
def nnnOf (op : Word) : Addr12 := op.extractLsb' 0 12

/-- Family 8, format XYS: the low nibble selects among nine ALU instructions (R52, R55). -/
def decodeAlu (op : Word) : Option Instr :=
  let x := xOf op
  let y := yOf op
  match (nOf op).val with
  | 0x0 => some (.ldVxVy x y)
  | 0x1 => some (.or x y)
  | 0x2 => some (.and x y)
  | 0x3 => some (.xor x y)
  | 0x4 => some (.addVxVy x y)
  | 0x5 => some (.sub x y)
  | 0x6 => some (.shr x y)
  | 0x7 => some (.subn x y)
  | 0xE => some (.shl x y)
  | _ => none

/-- Family E, format XSS: the low byte selects between two keypad instructions (R52, R55). -/
def decodeKey (op : Word) : Option Instr :=
  match (nnOf op).toNat with
  | 0x9E => some (.skp (xOf op))
  | 0xA1 => some (.sknp (xOf op))
  | _ => none

/-- Family F, format XSS: the low byte selects among nine timer, memory and keypad instructions (R52, R55). -/
def decodeMisc (op : Word) : Option Instr :=
  let x := xOf op
  match (nnOf op).toNat with
  | 0x07 => some (.ldVxDt x)
  | 0x0A => some (.ldVxK x)
  | 0x15 => some (.ldDtVx x)
  | 0x18 => some (.ldStVx x)
  | 0x1E => some (.addIVx x)
  | 0x29 => some (.ldFVx x)
  | 0x33 => some (.ldBVx x)
  | 0x55 => some (.ldMemVx x)
  | 0x65 => some (.ldVxMem x)
  | _ => none

/-- The decoder on words: total, `none` for exactly the illegal words (R55, R57). Families 0, 5, 8, 9, E and F check
their selector in full. -/
def decodeWord (op : Word) : Option Instr :=
  match (famOf op).val with
  | 0x0 => if op = 0x00E0#16 then some .cls else if op = 0x00EE#16 then some .ret else none
  | 0x1 => some (.jp (nnnOf op))
  | 0x2 => some (.call (nnnOf op))
  | 0x3 => some (.seVxNn (xOf op) (nnOf op))
  | 0x4 => some (.sneVxNn (xOf op) (nnOf op))
  | 0x5 => if nOf op = 0 then some (.seVxVy (xOf op) (yOf op)) else none
  | 0x6 => some (.ldVxNn (xOf op) (nnOf op))
  | 0x7 => some (.addVxNn (xOf op) (nnOf op))
  | 0x8 => decodeAlu op
  | 0x9 => if nOf op = 0 then some (.sneVxVy (xOf op) (yOf op)) else none
  | 0xA => some (.ldINnn (nnnOf op))
  | 0xB => some (.jpV0 (nnnOf op))
  | 0xC => some (.rnd (xOf op) (nnOf op))
  | 0xD => some (.drw (xOf op) (yOf op) (nOf op))
  | 0xE => decodeKey op
  | 0xF => decodeMisc op
  | _ => none

/-- Why bytes do not decode: fewer than the two bytes of an instruction, or a word that matches no row (R50, R57). -/
inductive DecodeError where
  | truncated
  | unknownOpcode (op : Word)
  deriving DecidableEq, Repr

/-- The decoder on any bytes: the instruction in the first two, with the bytes that follow it (R50, R55). -/
def decode : List Byte → Except DecodeError (Instr × List Byte)
  | hi :: lo :: rest =>
    match decodeWord (wordOfBytes hi lo) with
    | some i => .ok (i, rest)
    | none => .error (.unknownOpcode (wordOfBytes hi lo))
  | _ => .error .truncated

/-- A 4-bit field from a register number or a height (R51). -/
def nibble (k : Fin 16) : BitVec 4 := BitVec.ofFin k

/-- Format NNN: `fNNN` (R52). -/
def wordNNN (fam : BitVec 4) (nnn : Addr12) : Word := fam ++ nnn

/-- Format XNN: `fXNN`; format XSS is this one with the selector as `nn` (R52). -/
def wordXNN (fam : BitVec 4) (x : Reg) (nn : Byte) : Word := fam ++ nibble x ++ nn

/-- Format XYN: `fXYN`; format XYS is this one with the selector as `n` (R52). -/
def wordXYN (fam : BitVec 4) (x y : Reg) (n : Fin 16) : Word := fam ++ nibble x ++ nibble y ++ nibble n

/-- The word of an instruction, from the format and the fixed bits of its row (R52, R56). -/
def encode : Instr → Word
  | .cls => 0x00E0#16
  | .ret => 0x00EE#16
  | .jp nnn => wordNNN 0x1#4 nnn
  | .call nnn => wordNNN 0x2#4 nnn
  | .seVxNn x nn => wordXNN 0x3#4 x nn
  | .sneVxNn x nn => wordXNN 0x4#4 x nn
  | .seVxVy x y => wordXYN 0x5#4 x y 0x0
  | .ldVxNn x nn => wordXNN 0x6#4 x nn
  | .addVxNn x nn => wordXNN 0x7#4 x nn
  | .ldVxVy x y => wordXYN 0x8#4 x y 0x0
  | .or x y => wordXYN 0x8#4 x y 0x1
  | .and x y => wordXYN 0x8#4 x y 0x2
  | .xor x y => wordXYN 0x8#4 x y 0x3
  | .addVxVy x y => wordXYN 0x8#4 x y 0x4
  | .sub x y => wordXYN 0x8#4 x y 0x5
  | .shr x y => wordXYN 0x8#4 x y 0x6
  | .subn x y => wordXYN 0x8#4 x y 0x7
  | .shl x y => wordXYN 0x8#4 x y 0xE
  | .sneVxVy x y => wordXYN 0x9#4 x y 0x0
  | .ldINnn nnn => wordNNN 0xA#4 nnn
  | .jpV0 nnn => wordNNN 0xB#4 nnn
  | .rnd x nn => wordXNN 0xC#4 x nn
  | .drw x y n => wordXYN 0xD#4 x y n
  | .skp x => wordXNN 0xE#4 x 0x9E#8
  | .sknp x => wordXNN 0xE#4 x 0xA1#8
  | .ldVxDt x => wordXNN 0xF#4 x 0x07#8
  | .ldVxK x => wordXNN 0xF#4 x 0x0A#8
  | .ldDtVx x => wordXNN 0xF#4 x 0x15#8
  | .ldStVx x => wordXNN 0xF#4 x 0x18#8
  | .addIVx x => wordXNN 0xF#4 x 0x1E#8
  | .ldFVx x => wordXNN 0xF#4 x 0x29#8
  | .ldBVx x => wordXNN 0xF#4 x 0x33#8
  | .ldMemVx x => wordXNN 0xF#4 x 0x55#8
  | .ldVxMem x => wordXNN 0xF#4 x 0x65#8

/-- The two bytes of an instruction in address order, the high byte first (R50). -/
def encodeBytes (i : Instr) : List Byte := [highByte (encode i), lowByte (encode i)]

/-- An opcode-table word of `nbits` bits (bits above them zero) laid out as the hardware stores it: one 16-bit word,
high byte at the lower address (R50). -/
def tableBytes (nbits w : Nat) : List Byte :=
  let op : Word := BitVec.ofNat 16 (w % 2 ^ nbits)
  [highByte op, lowByte op]

/-- What the decoder reads from an opcode-table word. -/
def decodeTableWord (nbits w : Nat) : Option Instr :=
  match decode (tableBytes nbits w) with
  | .ok (i, _) => some i
  | .error _ => none

end Sys2Proof
end

