-- ==== Sys2Proof/Machine/Fetch.lean ====
section
/-!
DEFINITION. Fetch and decode, the part of a step before an instruction's own rule (spec/40_step_cycle.md R70 to R72).
-/

namespace Sys2Proof.Machine

/-- A fetch succeeds exactly for PC from 0 to 4094, on unbounded integers (R71). -/
def State.fetchable (s : State) : Bool := s.pc.toNat + 1 < Config.memSize

/-- The word `MEM[PC] || MEM[PC+1]` (R32). -/
def State.fetchedWord (s : State) : Word := wordOfBytes (s.byteAt s.pc.toNat) (s.byteAt (s.pc.toNat + 1))

/-- Fetch, then decode: the instruction at PC, or the fault met first with the word FAULT records for it (R71, R72, R159). -/
def State.fetchDecode (s : State) : Except (Fault × Word) Instr :=
  if s.fetchable then
    match decodeWord s.fetchedWord with
    | some i => .ok i
    | none => .error (.unknownOpcode, s.fetchedWord)
  else .error (.outOfBounds, 0)

/-- `s` made ready to fetch a word at PC: no fault recorded, and PC at the program base where it could not be fetched
from (log entry 9). -/
def State.readyToFetch (s : State) : State :=
  { s with fault := FaultRecord.clear, pc := if s.fetchable then s.pc else Config.progBase }

end Sys2Proof.Machine
end

