-- ==== Sys2Proof/Machine/ControlFlow.lean ====
section
/-!
DEFINITION. Control flow (spec/41_control_flow.md R80 to R89): RET, JP, CALL, the four skips, JP V0. Targets are not
checked when written; only the next fetch checks PC (R80).
-/

namespace Sys2Proof.Machine

/-- `00EE` (R81): the popped entry becomes PC; an empty stack raises StackUnderflow. -/
def execRet (s : State) : Result :=
  match s.pop with
  | some (target, t) => .next (t.setPc target)
  | none => raise .stackUnderflow (encode .ret) s

/-- `1NNN` (R82). -/
def execJp (nnn : Addr12) (s : State) : Result := .next (s.setPc (zextAddr nnn))

/-- `2NNN` (R83): npc is pushed and nnn becomes PC; a full stack raises StackOverflow. -/
def execCall (nnn : Addr12) (s : State) : Result :=
  match s.push s.npc with
  | some t => .next (t.setPc (zextAddr nnn))
  | none => raise .stackOverflow (encode (.call nnn)) s

/-- `3XNN` (R84). -/
def execSeVxNn (x : Reg) (nn : Byte) (s : State) : Result := .next (s.skipIf (s.reg x == nn))

/-- `4XNN` (R85). -/
def execSneVxNn (x : Reg) (nn : Byte) (s : State) : Result := .next (s.skipIf (s.reg x != nn))

/-- `5XY0` (R86). -/
def execSeVxVy (x y : Reg) (s : State) : Result := .next (s.skipIf (s.reg x == s.reg y))

/-- `9XY0` (R87). -/
def execSneVxVy (x y : Reg) (s : State) : Result := .next (s.skipIf (s.reg x != s.reg y))

/-- `BNNN` (R88): the 16-bit sum, not reduced to 12 bits (decision D20). -/
def execJpV0 (nnn : Addr12) (s : State) : Result := .next (s.setPc (zextAddr nnn + zextByte (s.reg 0)))

end Sys2Proof.Machine
end

