-- ==== Sys2Proof/Machine/Display.lean ====
section
/-!
DEFINITION. The display instructions (spec/44_display.md R120 to R123). The draw is the loop of R122: rows, then the eight
columns of a row, each sprite bit 1 toggling one pixel; coordinates wrap modulo 64 and 32.
-/

namespace Sys2Proof.Machine

/-- A draw in progress: the framebuffer so far, and `hit`, whether an on pixel has been turned off. -/
abbrev Drawing := Framebuffer × Bool

/-- Column `c` of a sprite byte `b` whose row lands on screen row `row` (R122): bit `7 - c` set toggles the pixel at column
`(x0 + c) mod 64`, and hits when it was on. -/
def drawBit (row : Fin 32) (x0 : Nat) (b : Byte) (d : Drawing) (c : Nat) : Drawing :=
  let col : Fin 64 := Fin.ofNat 64 (x0 + c)
  if b.getLsbD (7 - c) then (togglePixel d.1 row col, d.2 || pixelOf d.1 row col) else d

/-- One sprite row: columns 0 to 7 (R122). -/
def drawRow (row : Fin 32) (x0 : Nat) (b : Byte) (d : Drawing) : Drawing :=
  (List.range 8).foldl (drawBit row x0 b) d

/-- The sprite's rows from row `r` on; row `r` lands on screen row `(y0 + r) mod 32` (R122). -/
def drawRows (x0 y0 : Nat) : Nat → List Byte → Drawing → Drawing
  | _, [], d => d
  | r, b :: bs, d => drawRows x0 y0 (r + 1) bs (drawRow (Fin.ofNat 32 (y0 + r)) x0 b d)

/-- The whole draw from `hit = 0` (R122). -/
def drawSprite (fb : Framebuffer) (x0 y0 : Nat) (sprite : List Byte) : Drawing :=
  drawRows x0 y0 0 sprite (fb, false)

/-- `00E0` (R121): every pixel off. -/
def execCls (s : State) : Result := .next { s with fb := Vector.replicate 32 0 }.advance

/-- The effect of a draw that does not fault: FB, then VF = hit, PC = npc (R122). -/
def State.finishDraw (s : State) (x y : Reg) (n : Height) : State :=
  let d := drawSprite s.fb (s.reg x).toNat (s.reg y).toNat (s.spriteBytes n)
  ({ s with fb := d.1 }.setReg flagReg (flagByte d.2)).advance

/-- `DXYN` (R122): OutOfBounds when `n > 0` and the last sprite byte `I + n - 1` lies outside memory; with `n = 0` nothing
is read and VF becomes 0 (decision D26). -/
def execDrw (x y : Reg) (n : Height) (s : State) : Result :=
  if 0 < n.val && s.outside (n.val - 1) then raise .outOfBounds (encode (.drw x y n)) s
  else .next (s.finishDraw x y n)

end Sys2Proof.Machine
end

