-- ==== Sys2Proof/Machine/IndexMemory.lean ====
section
/-!
DEFINITION. The index register and the memory transfers (spec/43_index_memory.md R110 to R116). A transfer checks its last
address before any byte moves; outside memory it raises OutOfBounds and changes nothing else (R110). Only `ANNN`, `FX1E` and
`FX29` write I; none writes a flag.
-/

namespace Sys2Proof.Machine

/-- `I <- v` and PC = npc. -/
def State.finishIndex (s : State) (v : Word) : State := { s with i := v }.advance

/-- A transfer of bytes `I` to `I + last`: OutOfBounds when the last one lies outside memory, else `done` (R36, R110). -/
def transfer (last : Nat) (opcode : Word) (s done : State) : Result :=
  if s.outside last then raise .outOfBounds opcode s else .next done.advance

/-- `ANNN` (R111). -/
def execLdINnn (nnn : Addr12) (s : State) : Result := .next (s.finishIndex (zextAddr nnn))

/-- `FX1E` (R112): the sum mod 65536, no flag. -/
def execAddIVx (x : Reg) (s : State) : Result := .next (s.finishIndex (s.i + zextByte (s.reg x)))

/-- `FX29` (R113): `FONT_BASE + 5 d`, `d` the low nibble of V[x] (decision D11). -/
def execLdFVx (x : Reg) (s : State) : Result :=
  .next (s.finishIndex (Config.fontBase + BitVec.ofNat 16 (Config.glyphBytes * (lowNibble (s.reg x)).val)))

/-- `FX33` (R114): hundreds, tens and units of V[x] at I, I + 1, I + 2. -/
def execLdBVx (x : Reg) (s : State) : Result :=
  transfer 2 (encode (.ldBVx x)) s (s.storeBytes s.i.toNat (decimalDigits (s.reg x)))

/-- `FX55` (R115): V[0] to V[x] at I to I + x. -/
def execLdMemVx (x : Reg) (s : State) : Result :=
  transfer x.val (encode (.ldMemVx x)) s (s.storeBytes s.i.toNat (s.regsUpTo x))

/-- `FX65` (R116): V[0] to V[x] from I to I + x. -/
def execLdVxMem (x : Reg) (s : State) : Result :=
  transfer x.val (encode (.ldVxMem x)) s (s.loadRegsUpTo x)

end Sys2Proof.Machine
end

