-- ==== Sys2Proof/Machine/KeypadTimers.lean ====
section
/-!
DEFINITION. Keypad and timer instructions (spec/45_keypad_timers.md R130 to R136). The keypad is read through the snapshot;
timers are only copied, `tick` counts them (Machine/HostOps.lean). None can fault and none writes a flag.
-/

namespace Sys2Proof.Machine

/-- `EX9E` (R131): skip if the key named by the low nibble of V[x] is pressed. -/
def execSkp (x : Reg) (s : State) : Result := .next (s.skipIf (s.pressed (lowNibble (s.reg x))))

/-- `EXA1` (R132): skip if that key is not pressed. -/
def execSknp (x : Reg) (s : State) : Result := .next (s.skipIf (!s.pressed (lowNibble (s.reg x))))

/-- `FX07` (R133). -/
def execLdVxDt (x : Reg) (s : State) : Result := .next (s.setReg x s.dt).advance

/-- `FX0A` (R134): the least pressed key, if any is pressed; else PC stays `pc0` and nothing changes, so that the next step
meets the instruction again (R75). -/
def execLdVxK (x : Reg) (s : State) : Result :=
  match s.firstPressed with
  | some k => .next (s.setReg x (BitVec.ofNat 8 k.val)).advance
  | none => .next s

/-- `FX15` (R135). -/
def execLdDtVx (x : Reg) (s : State) : Result := .next { s with dt := s.reg x }.advance

/-- `FX18` (R136). -/
def execLdStVx (x : Reg) (s : State) : Result := .next { s with st := s.reg x }.advance

end Sys2Proof.Machine
end

