-- ==== Sys2Proof/Machine/Step.lean ====
section
/-!
DEFINITION. One step of the core (spec/40_step_cycle.md R70), and the placing of one instruction where it fetches.
-/

namespace Sys2Proof.Machine

/-- `step()` (R70): nothing on a halted core (R76); else fetch and decode, whose fault is taken (R155), and the decoded
instruction's own effect. -/
def step (s : State) : Host.Outcome State Fault Refusal :=
  if s.halted then .next s
  else
    match s.fetchDecode with
    | .ok i => exec i s
    | .error (kind, opcode) => raise kind opcode s

/-- `s` with one opcode-table word stored at PC, high byte first, where `step` fetches it next (log entry 9). -/
def State.withFetchWord (s : State) (nbits w : Nat) : State :=
  s.readyToFetch.storeBytes s.readyToFetch.pc.toNat (tableBytes nbits w)

end Sys2Proof.Machine
end

