-- ==== Sys2Proof/Machine/HostOps.lean ====
section
/-!
DEFINITION. The operations of the outside agents (spec/46_host_operations.md R140 to R146): construct, load, set_keys, tick,
get_framebuffer, beside `step`, and the moves a driver may make in any order (log entries 16, 19).
-/

namespace Sys2Proof.Machine

/-- `construct()`, the only reset (R140, R170). The model's own count of draws goes on, so that no draw is given twice (log
entry 4). -/
def construct (s : State) : State := { State.reset with draws := s.draws }

/-- What `load` returns (R141, R157). -/
inductive LoadResult where
  | ok
  | romTooLarge
  deriving DecidableEq, Repr

/-- `load(rom)` (R141): a ROM too large changes nothing; else everything is reset and the ROM is copied to 0x200. -/
def load (rom : List Byte) (s : State) : State × LoadResult :=
  if romFits rom then ((construct s).storeBytes Config.progBase.toNat rom, .ok) else (s, .romTooLarge)

/-- `set_keys(state)` (R143): all 16 flags at once, nothing else. -/
def setKeys (keys : Vector Bool 16) (s : State) : State := { s with key := keys }

/-- One timer counted down by one, floored at zero (R144). -/
def countDown (b : Byte) : Byte := if 0 < b.toNat then b - 1 else b

/-- `tick()` (R144): both timers count down, nothing else changes; on a halted core too. -/
def tick (s : State) : State := { s with dt := countDown s.dt, st := countDown s.st }

/-- `get_framebuffer()` (R145): the 2048 pixels, flat index `row * 64 + col`; the state is not changed. -/
def getFramebuffer (s : State) : Vector Bool 2048 :=
  Vector.ofFn fun k => s.pixel ⟨k.val / 64, by omega⟩ ⟨k.val % 64, by omega⟩

/-- `FAULT.kind` as its 3-bit code (spec/60_exceptions.md R151). -/
def faultCode : Option Fault → BitVec 3
  | none => 0
  | some .outOfBounds => 1
  | some .unknownOpcode => 2
  | some .stackUnderflow => 3
  | some .stackOverflow => 4

/-- The moves of the core with its environment (R142, R146). -/
inductive HostOp where
  | construct
  | load (rom : List Byte)
  | step
  | setKeys (keys : Vector Bool 16)
  | tick
  | getFramebuffer
  deriving DecidableEq, Repr

/-- The state after one operation (R142, R146). What `load` and `getFramebuffer` return is their own functions' to say. -/
def perform : HostOp → State → Result
  | .construct, s => .next (construct s)
  | .load rom, s => .next (load rom s).1
  | .step, s => step s
  | .setKeys keys, s => .next (setKeys keys s)
  | .tick, s => .next (tick s)
  | .getFramebuffer, s => .next s

/-- A driver's operations, one after the other: any order, each seeing the complete result of the one before (R146). -/
def performAll : List HostOp → State → Result
  | [], s => .next s
  | op :: ops, s =>
    match perform op s with
    | .next t => performAll ops t
    | .fault r => .fault r
    | .refused r => .refused r

/-- A step whose `CXNN`, if that is what it runs, is handed the draw `r` from outside (R104, R147); any other step is
`step`. A claim for every draw is a claim for every `r` here. -/
def stepWithDraw (r : Byte) (s : State) : Result :=
  if s.halted then .next s
  else
    match s.fetchDecode with
    | .ok (.rnd x nn) => .next (s.finishRandom x nn r)
    | _ => step s

end Sys2Proof.Machine
end

