-- ==== Sys2Proof/Machine/Signals.lean ====
section
/-!
DEFINITION. The signal-level reading of the interface that the spec offers (spec/46_host_operations.md R147, decision D17): one
clock period performs at most one operation. No instruction's meaning depends on it (log entry 12).
-/

namespace Sys2Proof.Machine

/-- The inputs sampled in one clock period (R147). `rom` is the byte stream of a load. -/
structure Inputs where
  resetReq : Bool
  loadReq : Bool
  stepReq : Bool
  tickReq : Bool
  keysReq : Bool
  keysIn : BitVec 16
  rndIn : Byte
  rom : List Byte
  deriving DecidableEq, Repr

/-- The outputs after a clock period (R147). -/
structure Outputs where
  fbOut : BitVec 2048
  faultKind : BitVec 3
  faultPc : Word
  faultOpcode : Word
  loadError : Bool
  deriving DecidableEq, Repr

/-- `keys_in[15:0]`: bit `k` is key `k` (R147). -/
def keysOfBits (bits : BitVec 16) : Vector Bool 16 := Vector.ofFn fun k => bits.getLsbD k.val

/-- `fb_out[2047:0]`: bit `row * 64 + col` is the pixel at (`row`, `col`) (R147). -/
def framebufferBits (fb : Framebuffer) : BitVec 2048 :=
  (List.finRange 32).foldl (fun acc row => acc ||| ((fb.get row).setWidth 2048 <<< (64 * row.val))) 0

/-- The outputs that a state shows; `loadError` belongs to the period's load (R147). -/
def outputsOf (loadError : Bool) (s : State) : Outputs where
  fbOut := framebufferBits s.fb
  faultKind := faultCode s.fault.kind
  faultPc := s.fault.pc
  faultOpcode := s.fault.opcode
  loadError := loadError

/-- The operation that a period's requests select, by the priority reset, load, keys, tick, step (R147). -/
def Inputs.selected (inp : Inputs) : Option HostOp :=
  if inp.resetReq then some .construct
  else if inp.loadReq then some (.load inp.rom)
  else if inp.keysReq then some (.setKeys (keysOfBits inp.keysIn))
  else if inp.tickReq then some .tick
  else if inp.stepReq then some .step
  else none

/-- One clock period's next state: the selected operation completes within it; a `CXNN` step samples `rnd_in` (R147). -/
def clockState (inp : Inputs) (s : State) : Result :=
  match inp.selected with
  | none => .next s
  | some .step => stepWithDraw inp.rndIn s
  | some op => perform op s

/-- `load_error`: this period's operation is a load, and its ROM is too large (R147, R157). -/
def clockLoadError (inp : Inputs) (s : State) : Bool :=
  match inp.selected with
  | some (.load rom) => (load rom s).2 == .romTooLarge
  | _ => false

/-- One clock period: the next state with the outputs it shows (R147). -/
def clock (inp : Inputs) (s : State) : Host.Outcome (State × Outputs) Fault Refusal :=
  match clockState inp s with
  | .next t => .next (t, outputsOf (clockLoadError inp s) t)
  | .fault r => .fault r
  | .refused r => .refused r

end Sys2Proof.Machine
end

