-- ==== Sys2Proof/Safety.lean ====
section
/-!
DEFINITION. The terms claims are stated in: what an instruction may write, what stays the same, the invariant of the machine,
a run without a fault, and the end of a run.
-/

namespace Sys2Proof.Machine

/-- No fault is recorded: what a claim about a program proves or assumes (spec/60_exceptions.md R156). -/
def State.healthy (s : State) : Prop := s.fault.kind = none

/-- The general registers an instruction names as destination or writes as the flag (spec/10_state.md R11; the rules of
files 41 to 45). -/
def writesReg : Instr → Reg → Bool
  | .ldVxNn x _, r | .addVxNn x _, r | .ldVxVy x _, r | .or x _, r | .and x _, r | .xor x _, r => r == x
  | .addVxVy x _, r | .sub x _, r | .shr x _, r | .subn x _, r | .shl x _, r => r == x || r == flagReg
  | .rnd x _, r | .ldVxDt x, r | .ldVxK x, r => r == x
  | .drw _ _ _, r => r == flagReg
  | .ldVxMem x, r => r ≤ x
  | .cls, _ | .ret, _ | .jp _, _ | .call _, _ | .seVxNn _ _, _ | .sneVxNn _ _, _ | .seVxVy _ _, _ | .sneVxVy _ _, _ => false
  | .ldINnn _, _ | .jpV0 _, _ | .skp _, _ | .sknp _, _ | .ldDtVx _, _ | .ldStVx _, _ | .addIVx _, _ => false
  | .ldFVx _, _ | .ldBVx _, _ | .ldMemVx _, _ => false

/-- The condition under which an instruction faults in its execute phase, with the kind (R151). -/
def faultOf (s : State) : Instr → Option Fault
  | .ret => if s.sp = 0 then some .stackUnderflow else none
  | .call _ => if s.sp = 16 then some .stackOverflow else none
  | .drw _ _ n => if 0 < n.val ∧ 4096 ≤ s.i.toNat + n.val - 1 then some .outOfBounds else none
  | .ldBVx _ => if 4096 ≤ s.i.toNat + 2 then some .outOfBounds else none
  | .ldMemVx x | .ldVxMem x => if 4096 ≤ s.i.toNat + x.val then some .outOfBounds else none
  | .cls | .jp _ | .seVxNn _ _ | .sneVxNn _ _ | .seVxVy _ _ | .ldVxNn _ _ | .addVxNn _ _ | .ldVxVy _ _ | .or _ _
  | .and _ _ | .xor _ _ | .addVxVy _ _ | .sub _ _ | .shr _ _ | .subn _ _ | .shl _ _ | .sneVxVy _ _ | .ldINnn _
  | .jpV0 _ | .rnd _ _ | .skp _ | .sknp _ | .ldVxDt _ | .ldVxK _ | .ldDtVx _ | .ldStVx _ | .addIVx _ | .ldFVx _ => none

/-- Every byte of memory reads the same in both states. -/
def sameMemory (s t : State) : Prop := ∀ a : Nat, t.byteAt a = s.byteAt a

/-- Everything but FAULT is the same: what a faulting step leaves (R155). -/
def sameButFault (s t : State) : Prop := t = { s with fault := t.fault }

/-- The bit of the sprite at `bytes` (row 0 first) that a draw with origin column `x0`, row `y0` maps to a pixel, if any: the
sprite column and row that land there modulo 64 and 32 (spec/44_display.md R122, R123). -/
def spriteBitAt (x0 y0 : Nat) (bytes : List Byte) (row : Fin 32) (col : Fin 64) : Bool :=
  let c := (col.val + 64 - x0 % 64) % 64
  let r := (row.val + 32 - y0 % 32) % 32
  decide (c < 8) && (bytes.getD r 0).getLsbD (7 - c)

/-- A recorded fault agrees with the state that raised it: PC still points at the faulting instruction, the word is the one
R151 gives, and the condition of the fault holds (R151, R155). -/
def State.faultConsistent (s : State) : Prop :=
  match s.fault.kind with
  | none => s.fault.pc = 0 ∧ s.fault.opcode = 0
  | some kind =>
    s.fault.pc = s.pc ∧
      ((kind = .outOfBounds ∧ s.fault.opcode = 0 ∧ 4095 ≤ s.pc.toNat) ∨
        (kind = .unknownOpcode ∧ decodeWord s.fault.opcode = none) ∨
        ∃ i, decodeWord s.fault.opcode = some i ∧ faultOf s i = some kind)

/-- THE INVARIANT of the machine: memory is in canonical form, PC stays within the bound of R13, every stack entry in use
is a possible npc of a CALL (R14, R81), and FAULT agrees with the state. -/
structure State.Inv (s : State) : Prop where
  memory : Memory.wf s.mem
  pcBound : s.pc.toNat ≤ 0x10FE
  returns : ∀ k : Fin 16, k.val < s.sp.val → 2 ≤ (s.stack.get k).toNat ∧ (s.stack.get k).toNat ≤ 4096
  faultRecord : s.faultConsistent

/-- END_OF_RUN is an open parameter: a predicate on the state before and the state after a step (spec/40_step_cycle.md R77,
decision D22). It is an argument of `runUntil`; no meaning reads it. -/
abbrev EndOfRun := State → State → Bool

/-- The suggested default, abnormal end: the step that records a fault (decision D22). -/
def endsAbnormally (before after : State) : Bool := !before.halted && after.halted

/-- The suggested default, normal end: the step that executes a jump to its own address (decision D22). -/
def endsNormally (before : State) : Bool :=
  !before.halted &&
    match before.fetchDecode with
    | .ok (.jp nnn) => zextAddr nnn == before.pc
    | _ => false

/-- The suggested default of END_OF_RUN (decision D22, log entry 14). -/
def defaultEndOfRun : EndOfRun := fun before after => endsAbnormally before after || endsNormally before

/-- At most `k` steps, stopping after the first that ends the run. -/
def runUntil (ends : EndOfRun) : Nat → State → Result
  | 0, s => .next s
  | k + 1, s =>
    match step s with
    | .next t => if ends s t then .next t else runUntil ends k t
    | .fault r => .fault r
    | .refused r => .refused r

end Sys2Proof.Machine
end

