-- ==== Sys2Proof/Certificates/Slice0/Obligations.lean ====
section
/-!
DEFINITION. The statements about the model, taken from the numbered rules of spec/. Each docstring names the rules it
formalises. Results are read through the accessors of State: `reg`, `byteAt`, `pressed`, `pixel`. A meaning runs at the state
before the fetch's advance, so PC = npc after an instruction reads `t.pc = s.pc + 2` (log entry 7).
-/

open Sys2Proof Sys2Proof.Machine

/-! ### Reset and the operations of the outside agents -/

/-- R23, R170: every piece of state after reset. The font bytes are the parameter FONT, log entry 5. -/
def Obligations.ResetStateIsTheTable : Prop :=
  (∀ x, State.reset.reg x = 0) ∧ State.reset.i = 0 ∧ State.reset.pc = 0x200 ∧ State.reset.sp = 0 ∧
    (∀ k, State.reset.stack.get k = 0) ∧ State.reset.dt = 0 ∧ State.reset.st = 0 ∧
    (∀ k, State.reset.pressed k = false) ∧ (∀ row col, State.reset.pixel row col = false) ∧
    (∀ k (h : k < 80), State.reset.byteAt k = font[k]'(by simpa [font, fontLow, fontHigh] using h)) ∧
    (∀ a, 80 ≤ a → a < 4096 → State.reset.byteAt a = 0) ∧
    State.reset.fault = { kind := none, pc := 0, opcode := 0 }

/-- R170: reset is the operation `construct`, and every piece of the spec's state has its reset value after it, from any
state. The model's own count of draws is left out of the comparison (log entry 4). -/
def Obligations.ConstructResetsEverything : Prop :=
  ∀ s, { construct s with draws := State.reset.draws } = State.reset

/-- R141, R157, R171: a ROM of at most 3584 bytes is copied to 0x200 into the reset state, whatever came before; a longer one
is refused and changes nothing. -/
def Obligations.LoadResetsThenCopiesOrRefuses : Prop :=
  ∀ (rom : List Byte) (s : State),
    (rom.length ≤ 3584 →
      (load rom s).2 = .ok ∧
        (load rom s).1 = { construct s with mem := (load rom s).1.mem } ∧
        (∀ k (h : k < rom.length), (load rom s).1.byteAt (0x200 + k) = rom[k]) ∧
        ∀ a, ¬(0x200 ≤ a ∧ a < 0x200 + rom.length) → (load rom s).1.byteAt a = State.reset.byteAt a) ∧
    (3584 < rom.length → load rom s = (s, .romTooLarge))

/-- R143: all 16 flags are replaced at once and no other state changes. -/
def Obligations.SetKeysReplacesTheSnapshot : Prop :=
  ∀ (keys : Vector Bool 16) (s : State),
    (∀ k, (setKeys keys s).pressed k = keys.get k) ∧ setKeys keys s = { s with key := (setKeys keys s).key }

/-- R144: any number `k` of ticks takes `k` from each timer, floored at zero, and changes nothing else. -/
def Obligations.TicksCountDownToZero : Prop :=
  ∀ (k : Nat) (s : State),
    (tick^[k] s).dt.toNat = s.dt.toNat - k ∧ (tick^[k] s).st.toNat = s.st.toNat - k ∧
      tick^[k] s = { s with dt := (tick^[k] s).dt, st := (tick^[k] s).st }

/-- R145: the flat index of a pixel is `row * 64 + col`, and reading the picture leaves the state as it is. -/
def Obligations.FramebufferIsRowMajor : Prop :=
  ∀ (s : State) (row : Fin 32) (col : Fin 64),
    (getFramebuffer s).get ⟨row.val * 64 + col.val, by omega⟩ = s.pixel row col ∧ perform .getFramebuffer s = .next s

/-- The signal-level reading the spec offers as its own choice (R147, decision D17; log entry 12). The priority reset, load,
keys, tick, step; a `CXNN` step takes its draw from `rnd_in`; with no request nothing happens. Bit `k` of `keys_in` is key
`k`. A period shows the outputs of the state it ends in: bit `row * 64 + col` of `fb_out` is the pixel, `fault_kind` is the
code of FAULT.kind, `fault_pc` and `fault_opcode` are FAULT's; `load_error` is 1 exactly when the period's operation is a load
of a ROM of more than 3584 bytes. -/
def Obligations.SignalLevelReading : Prop :=
  (∀ (inp : Inputs) (s : State),
    clockState inp s =
      if inp.resetReq then .next (construct s)
      else if inp.loadReq then .next (load inp.rom s).1
      else if inp.keysReq then .next (setKeys (keysOfBits inp.keysIn) s)
      else if inp.tickReq then .next (tick s)
      else if inp.stepReq then stepWithDraw inp.rndIn s
      else .next s) ∧
    (∀ (bits : BitVec 16) (k : Reg), (keysOfBits bits).get k = bits.getLsbD k.val) ∧
    (∀ (inp : Inputs) (s t : State), clockState inp s = .next t →
      ∃ out, clock inp s = .next (t, out) ∧
        (∀ (row : Fin 32) (col : Fin 64), out.fbOut.getLsbD (row.val * 64 + col.val) = t.pixel row col) ∧
        out.faultKind = faultCode t.fault.kind ∧ out.faultPc = t.fault.pc ∧ out.faultOpcode = t.fault.opcode ∧
        (out.loadError = true ↔ inp.resetReq = false ∧ inp.loadReq = true ∧ 3584 < inp.rom.length)) ∧
    ∀ (loadError : Bool) (s : State) (row : Fin 32) (col : Fin 64),
      (outputsOf loadError s).fbOut.getLsbD (row.val * 64 + col.val) = s.pixel row col

/-! ### Encoding -/

/-- R50 to R56: decoding the bytes of any instruction, whatever follows them, gives back that instruction with every
operand, and the bytes that follow. -/
def Obligations.DecodeOfEncode : Prop :=
  ∀ (i : Instr) (rest : List Byte), decode (encodeBytes i ++ rest) = .ok (i, rest)

/-- R55, R56: each legal word is the encoding of exactly the instruction it decodes to; no bit of a word is lost. -/
def Obligations.EncodeOfDecode : Prop := ∀ (w : Word) (i : Instr), decodeWord w = some i → encode i = w

/-- R57: the illegal words are exactly the six classes of the table. -/
def Obligations.IllegalWordsAreTheSixClasses : Prop :=
  ∀ w : Word, decodeWord w = none ↔
    (w.toNat / 4096 = 0x0 ∧ w.toNat ≠ 0x00E0 ∧ w.toNat ≠ 0x00EE) ∨
    (w.toNat / 4096 = 0x5 ∧ w.toNat % 16 ≠ 0) ∨
    (w.toNat / 4096 = 0x8 ∧ w.toNat % 16 ∈ [0x8, 0x9, 0xA, 0xB, 0xC, 0xD, 0xF]) ∨
    (w.toNat / 4096 = 0x9 ∧ w.toNat % 16 ≠ 0) ∨
    (w.toNat / 4096 = 0xE ∧ w.toNat % 256 ∉ [0x9E, 0xA1]) ∨
    (w.toNat / 4096 = 0xF ∧ w.toNat % 256 ∉ [0x07, 0x0A, 0x15, 0x18, 0x1E, 0x29, 0x33, 0x55, 0x65])

/-- R55: the field-by-field decoder and the table of masks and matches are the same decoder: a word decodes exactly when a
row selects it, the row that selects it is the decoded instruction's row, and no two rows select one word. -/
def Obligations.DecoderAgreesWithOpcodeMap : Prop :=
  ∀ w : Word, (decodeWord w).isSome = legalWord w ∧
    (∀ i, decodeWord w = some i → ∀ r ∈ opcodeMap, r.selects w = true → r.mnemonic = i.mnemonic) ∧
    opcodeMap.Pairwise fun r r' => ¬(r.selects w = true ∧ r'.selects w = true)

/-- R53, R56: words the spec writes out, one or more of each family. -/
def Obligations.SpecWordsDecode : Prop :=
  decodeWord 0x6005#16 = some (.ldVxNn 0 0x05) ∧ decodeWord 0xA230#16 = some (.ldINnn 0x230) ∧
    decodeWord 0xF007#16 = some (.ldVxDt 0) ∧ decodeWord 0x00E0#16 = some .cls ∧ decodeWord 0x00EE#16 = some .ret ∧
    decodeWord 0x2300#16 = some (.call 0x300) ∧ decodeWord 0x8124#16 = some (.addVxVy 1 2) ∧
    decodeWord 0xC10F#16 = some (.rnd 1 0x0F) ∧ decodeWord 0xD235#16 = some (.drw 2 3 5) ∧
    decodeWord 0xE59E#16 = some (.skp 5) ∧ decodeWord 0xF255#16 = some (.ldMemVx 2) ∧ decodeWord 0x0000#16 = none

/-! ### The step cycle -/

/-- The whole behaviour of a step: nothing on a halted core; OutOfBounds when PC + 1 reaches 4096; UnknownOpcode for a word
that is no instruction; else the decoded instruction's own effect (R70, R71, R72). -/
def Obligations.StepCycle : Prop :=
  ∀ s : State, step s =
    if s.fault.kind ≠ none then .next s
    else if 4096 ≤ s.pc.toNat + 1 then .next { s with fault := { kind := some .outOfBounds, pc := s.pc, opcode := 0 } }
    else
      match decodeWord (s.byteAt s.pc.toNat ++ s.byteAt (s.pc.toNat + 1)) with
      | none => .next { s with fault :=
          { kind := some .unknownOpcode, pc := s.pc, opcode := s.byteAt s.pc.toNat ++ s.byteAt (s.pc.toNat + 1) } }
      | some i => exec i s

/-- When the bytes at PC decode to an instruction and no fault is recorded, a step is that instruction's execution at that
state, with nothing around it (R70, R73). -/
def Obligations.StepRunsTheDecodedInstruction : Prop :=
  ∀ (s : State) (i : Instr) (rest : List Byte), s.fault.kind = none → s.pc.toNat ≤ 4094 →
    decode [s.byteAt s.pc.toNat, s.byteAt (s.pc.toNat + 1)] = .ok (i, rest) → step s = exec i s

/-- An instruction placed by `withFetchWord` is the one the very next step runs, from any state (log entry 9). -/
def Obligations.PlacedWordRunsNext : Prop :=
  ∀ (s : State) (w : Nat) (i : Instr), decodeTableWord 16 w = some i →
    step (s.withFetchWord 16 w) = exec i (s.withFetchWord 16 w)

/-- R76: a halted core does nothing in a step; only `construct` and an accepted `load` clear FAULT. `tick` and `set_keys` act on
a halted core as on any other and leave FAULT as it is, and so do `get_framebuffer` and a refused `load`. -/
def Obligations.HaltedCoreStays : Prop :=
  ∀ s : State, s.fault.kind ≠ none →
    step s = .next s ∧ perform .getFramebuffer s = .next s ∧
      tick s = { s with dt := countDown s.dt, st := countDown s.st } ∧ (tick s).fault = s.fault ∧
      (∀ keys, (setKeys keys s).key = keys ∧ (setKeys keys s).fault = s.fault) ∧
      (construct s).fault = { kind := none, pc := 0, opcode := 0 } ∧
      ∀ rom : List Byte,
        (rom.length ≤ 3584 → (load rom s).1.fault = { kind := none, pc := 0, opcode := 0 }) ∧
        (3584 < rom.length → (load rom s).1.fault = s.fault)

/-- R155: a step that faults leaves every piece of state but FAULT as before the step, and FAULT holds the kind, the address
of the faulting instruction, which is still PC, and the fetched word, or 0 when the fetch itself faulted (decision D3). -/
def Obligations.FaultingStepChangesOnlyFault : Prop :=
  ∀ s t : State, s.fault.kind = none → step s = .next t → t.fault.kind ≠ none →
    sameButFault s t ∧ t.fault.pc = s.pc ∧
      (4096 ≤ s.pc.toNat + 1 → t.fault.kind = some .outOfBounds ∧ t.fault.opcode = 0) ∧
      (s.pc.toNat + 1 < 4096 → t.fault.opcode = s.byteAt s.pc.toNat ++ s.byteAt (s.pc.toNat + 1) ∧
        (decodeWord t.fault.opcode = none → t.fault.kind = some .unknownOpcode) ∧
        ∀ i, decodeWord t.fault.opcode = some i → t.fault.kind = faultOf s i)

/-- R151: the table of faults. The codes, and what FAULT holds with none recorded; the fetch row and the decode row; and for
the execute phase, an instruction faults exactly under its row's condition, with the kind, `pc0` and the word the row gives,
and otherwise does not write FAULT. -/
def Obligations.FaultsAreExactlyAsTabled : Prop :=
  (faultCode none = 0 ∧ faultCode (some .outOfBounds) = 1 ∧ faultCode (some .unknownOpcode) = 2 ∧
      faultCode (some .stackUnderflow) = 3 ∧ faultCode (some .stackOverflow) = 4 ∧
      ∀ s : State, (construct s).fault = { kind := none, pc := 0, opcode := 0 }) ∧
    (∀ s : State, s.fault.kind = none →
      (4096 ≤ s.pc.toNat + 1 →
        step s = .next { s with fault := { kind := some .outOfBounds, pc := s.pc, opcode := 0 } }) ∧
      (s.pc.toNat + 1 < 4096 → decodeWord s.fetchedWord = none →
        step s = .next { s with fault := { kind := some .unknownOpcode, pc := s.pc, opcode := s.fetchedWord } })) ∧
    ∀ (i : Instr) (s : State),
      (∀ k, faultOf s i = some k →
        exec i s = .next { s with fault := { kind := some k, pc := s.pc, opcode := encode i } }) ∧
      (faultOf s i = none → ∃ t, exec i s = .next t ∧ t.fault = s.fault)

/-- Every step answers a next state: the spec gives every word, legal or not, its effect (R70, R155). -/
def Obligations.EveryStepAnswersNext : Prop := ∀ s : State, ∃ t, step s = .next t

/-- R103, R104 and R20, with the free value of log entry 3: no instruction but `CXNN` depends on the draws or advances them.
Executed at a state with any other count of draws, and so with any other draws to come, it answers the same state but for that
count. And the step is the step handed the next free draw, so a claim about `stepWithDraw` for every draw is one about `step`. -/
def Obligations.OnlyRandomDependsOnTheDraw : Prop :=
  (∀ (i : Instr) (s t : State) (d : Nat), (∀ x nn, i ≠ .rnd x nn) → exec i s = .next t →
    exec i { s with draws := d } = .next { t with draws := d }) ∧
  ∀ s : State, step s = stepWithDraw (Config.rnd s.draws) s

/-! ### Results: control flow -/

/-- R81: with an entry on the stack, RET pops it into PC and changes nothing else; on an empty stack it raises
StackUnderflow and nothing but FAULT changes. -/
def Obligations.RetPopsOrUnderflows : Prop :=
  (∀ (s : State) (k : Fin 16), s.sp.val = k.val + 1 →
    ∃ t, exec .ret s = .next t ∧ t.pc = s.stack.get k ∧ t.sp.val = k.val ∧ t = { s with pc := t.pc, sp := t.sp }) ∧
  ∀ s : State, s.sp.val = 0 →
    exec .ret s = .next { s with fault := { kind := some .stackUnderflow, pc := s.pc, opcode := 0x00EE } }

/-- R83: with fewer than 16 entries in use, CALL pushes npc and PC becomes the target, nothing else changing; with 16 in use
it raises StackOverflow and nothing but FAULT changes. -/
def Obligations.CallPushesOrOverflows : Prop :=
  (∀ (s : State) (nnn : Addr12) (k : Fin 16), s.sp.val = k.val →
    ∃ t, exec (.call nnn) s = .next t ∧ t.pc = nnn.setWidth 16 ∧ t.sp.val = k.val + 1 ∧
      t.stack.get k = s.pc + 2 ∧ (∀ j, j ≠ k → t.stack.get j = s.stack.get j) ∧
      t = { s with pc := t.pc, sp := t.sp, stack := t.stack }) ∧
  ∀ (s : State) (nnn : Addr12), s.sp.val = 16 →
    exec (.call nnn) s = .next { s with fault := { kind := some .stackOverflow, pc := s.pc, opcode := 0x2#4 ++ nnn } }

/-- The spec's own inference R89: after a CALL that does not fault, a RET with the same SP and stack restores PC to the CALL's npc and SP. -/
def Obligations.ReturnMatchesCall : Prop :=
  ∀ (s t u : State) (nnn : Addr12), s.sp.val < 16 → exec (.call nnn) s = .next t → u.sp = t.sp → u.stack = t.stack →
    ∃ w, exec .ret u = .next w ∧ w.pc = s.pc + 2 ∧ w.sp = s.sp ∧ w.v = u.v ∧ w.i = u.i

/-- R82, R88: JP writes nnn to PC; JP V0 writes the exact sum nnn + V[0], never reduced to 12 bits; nothing else changes. -/
def Obligations.JumpsWriteTheTarget : Prop :=
  ∀ (s : State) (nnn : Addr12),
    (∃ t, exec (.jp nnn) s = .next t ∧ t.pc.toNat = nnn.toNat ∧ t = { s with pc := t.pc }) ∧
    ∃ t, exec (.jpV0 nnn) s = .next t ∧ t.pc.toNat = nnn.toNat + (s.reg 0).toNat ∧ t = { s with pc := t.pc }

/-- A jump to its own address changes nothing at all (R82, corner case; R77). -/
def Obligations.JumpToItselfIsAFixedPoint : Prop :=
  ∀ (s : State) (nnn : Addr12), s.fetchDecode = .ok (.jp nnn) → nnn.setWidth 16 = s.pc → step s = .next s

/-- R84 to R87: each skip ends at npc + 2 exactly when its comparison holds, else at npc, and changes nothing else. -/
def Obligations.ComparisonSkips : Prop :=
  ∀ (s : State) (x y : Reg) (nn : Byte),
    exec (.seVxNn x nn) s = .next { s with pc := if s.reg x = nn then s.pc + 4 else s.pc + 2 } ∧
    exec (.sneVxNn x nn) s = .next { s with pc := if s.reg x ≠ nn then s.pc + 4 else s.pc + 2 } ∧
    exec (.seVxVy x y) s = .next { s with pc := if s.reg x = s.reg y then s.pc + 4 else s.pc + 2 } ∧
    exec (.sneVxVy x y) s = .next { s with pc := if s.reg x ≠ s.reg y then s.pc + 4 else s.pc + 2 }

/-! ### Results: immediate, ALU, random -/

/-- R91, R92: the immediate is moved, or added modulo 256; no other register, VF among them, and no other state changes. -/
def Obligations.ImmediateResults : Prop :=
  ∀ (s : State) (x : Reg) (nn : Byte),
    (∃ t, exec (.ldVxNn x nn) s = .next t ∧ t.reg x = nn ∧ (∀ r, r ≠ x → t.reg r = s.reg r) ∧
      t = { s with v := t.v, pc := s.pc + 2 }) ∧
    ∃ t, exec (.addVxNn x nn) s = .next t ∧ (t.reg x).toNat = ((s.reg x).toNat + nn.toNat) % 256 ∧
      (∀ r, r ≠ x → t.reg r = s.reg r) ∧ t = { s with v := t.v, pc := s.pc + 2 }

/-- R93 to R96: copy, OR, AND, XOR, bit by bit; no other register, VF among them (decision D9), and no other state changes. -/
def Obligations.MoveAndLogicResults : Prop :=
  ∀ (s : State) (x y : Reg),
    (∃ t, exec (.ldVxVy x y) s = .next t ∧ t.reg x = s.reg y ∧
      (∀ r, r ≠ x → t.reg r = s.reg r) ∧ t = { s with v := t.v, pc := s.pc + 2 }) ∧
    (∃ t, exec (.or x y) s = .next t ∧ (∀ k, (t.reg x).getLsbD k = ((s.reg x).getLsbD k || (s.reg y).getLsbD k)) ∧
      (∀ r, r ≠ x → t.reg r = s.reg r) ∧ t = { s with v := t.v, pc := s.pc + 2 }) ∧
    (∃ t, exec (.and x y) s = .next t ∧ (∀ k, (t.reg x).getLsbD k = ((s.reg x).getLsbD k && (s.reg y).getLsbD k)) ∧
      (∀ r, r ≠ x → t.reg r = s.reg r) ∧ t = { s with v := t.v, pc := s.pc + 2 }) ∧
    ∃ t, exec (.xor x y) s = .next t ∧ (∀ k, (t.reg x).getLsbD k = ((s.reg x).getLsbD k ^^ (s.reg y).getLsbD k)) ∧
      (∀ r, r ≠ x → t.reg r = s.reg r) ∧ t = { s with v := t.v, pc := s.pc + 2 }

/-- R97: the sum modulo 256, and VF = 1 exactly when the sum exceeds 255; with x = 15 VF is the flag (R90, decision D8);
nothing else changes. -/
def Obligations.AddSetsCarry : Prop :=
  ∀ (s : State) (x y : Reg), ∃ t, exec (.addVxVy x y) s = .next t ∧
    (x ≠ 15 → (t.reg x).toNat = ((s.reg x).toNat + (s.reg y).toNat) % 256) ∧
    t.reg 15 = (if 255 < (s.reg x).toNat + (s.reg y).toNat then 1 else 0) ∧
    (∀ r, r ≠ x → r ≠ 15 → t.reg r = s.reg r) ∧ t = { s with v := t.v, pc := s.pc + 2 }

/-- R98, R100: the difference, or the reversed difference, modulo 256, and VF = 1 exactly when the minuend is strictly
greater; with x = 15 VF is the flag (R90, decision D8); nothing else changes. -/
def Obligations.SubtractionsSetStrictFlag : Prop :=
  ∀ (s : State) (x y : Reg),
    (∃ t, exec (.sub x y) s = .next t ∧
      (x ≠ 15 → (t.reg x).toNat = ((s.reg x).toNat + 256 - (s.reg y).toNat) % 256) ∧
      t.reg 15 = (if (s.reg y).toNat < (s.reg x).toNat then 1 else 0) ∧
      (∀ r, r ≠ x → r ≠ 15 → t.reg r = s.reg r) ∧ t = { s with v := t.v, pc := s.pc + 2 }) ∧
    ∃ t, exec (.subn x y) s = .next t ∧
      (x ≠ 15 → (t.reg x).toNat = ((s.reg y).toNat + 256 - (s.reg x).toNat) % 256) ∧
      t.reg 15 = (if (s.reg x).toNat < (s.reg y).toNat then 1 else 0) ∧
      (∀ r, r ≠ x → r ≠ 15 → t.reg r = s.reg r) ∧ t = { s with v := t.v, pc := s.pc + 2 }

/-- R99, R101: V[x] is halved, or doubled modulo 256, in place, whatever `y` is (decision D7); VF is the bit moved out, also
for x = 15 (R90, decision D8); nothing else changes. -/
def Obligations.ShiftsMoveOneBitOut : Prop :=
  ∀ (s : State) (x y : Reg),
    (∃ t, exec (.shr x y) s = .next t ∧ (x ≠ 15 → (t.reg x).toNat = (s.reg x).toNat / 2) ∧
      (t.reg 15).toNat = (s.reg x).toNat % 2 ∧ (∀ r, r ≠ x → r ≠ 15 → t.reg r = s.reg r) ∧
      t = { s with v := t.v, pc := s.pc + 2 }) ∧
    ∃ t, exec (.shl x y) s = .next t ∧ (x ≠ 15 → (t.reg x).toNat = (s.reg x).toNat * 2 % 256) ∧
      (t.reg 15).toNat = (s.reg x).toNat / 128 ∧ (∀ r, r ≠ x → r ≠ 15 → t.reg r = s.reg r) ∧
      t = { s with v := t.v, pc := s.pc + 2 }

/-- R103, R104 with the free value of log entry 3 (DESIGN CHOICE): `exec` takes the next free draw and V[x] becomes that draw
masked by nn; and handed any byte `r` as the draw, the step gives `r` masked by nn, nothing else changing but PC. -/
def Obligations.RandomIsTheMaskedDraw : Prop :=
  (∀ (s : State) (x : Reg) (nn : Byte), ∃ t, exec (.rnd x nn) s = .next t ∧ t.reg x = Config.rnd s.draws &&& nn ∧
    t.draws = s.draws + 1) ∧
  ∀ (s : State) (x : Reg) (nn r : Byte), s.fault.kind = none → s.fetchDecode = .ok (.rnd x nn) →
    ∃ t, stepWithDraw r s = .next t ∧ t.reg x = r &&& nn ∧ (∀ k, k ≠ x → t.reg k = s.reg k) ∧
      t = { s with v := t.v, pc := s.pc + 2, draws := t.draws }

/-! ### Results: index and memory -/

/-- R111, R112, R113: the three writers of I; no flag and no other state changes. -/
def Obligations.IndexResults : Prop :=
  ∀ (s : State) (x : Reg) (nnn : Addr12),
    (∃ t, exec (.ldINnn nnn) s = .next t ∧ t.i.toNat = nnn.toNat ∧ t = { s with i := t.i, pc := s.pc + 2 }) ∧
    (∃ t, exec (.addIVx x) s = .next t ∧ t.i.toNat = (s.i.toNat + (s.reg x).toNat) % 65536 ∧
      t = { s with i := t.i, pc := s.pc + 2 }) ∧
    ∃ t, exec (.ldFVx x) s = .next t ∧ t.i.toNat = 5 * ((s.reg x).toNat % 16) ∧
      t = { s with i := t.i, pc := s.pc + 2 }

/-- R114: hundreds, tens and units of V[x] at I, I + 1, I + 2, and nothing else changes; outside memory it raises OutOfBounds
and nothing but FAULT changes. -/
def Obligations.DecimalDigitsAreStored : Prop :=
  ∀ (s : State) (x : Reg),
    (s.i.toNat + 2 < 4096 → ∃ t, exec (.ldBVx x) s = .next t ∧
      (t.byteAt s.i.toNat).toNat = (s.reg x).toNat / 100 ∧
      (t.byteAt (s.i.toNat + 1)).toNat = (s.reg x).toNat / 10 % 10 ∧
      (t.byteAt (s.i.toNat + 2)).toNat = (s.reg x).toNat % 10 ∧
      (∀ a, ¬(s.i.toNat ≤ a ∧ a ≤ s.i.toNat + 2) → t.byteAt a = s.byteAt a) ∧
      t = { s with mem := t.mem, pc := s.pc + 2 }) ∧
    (4096 ≤ s.i.toNat + 2 → exec (.ldBVx x) s = .next { s with fault :=
      { kind := some .outOfBounds, pc := s.pc, opcode := 0xF#4 ++ nibble x ++ 0x33#8 } })

/-- R115: V[0] to V[x] at I to I + x, and nothing else changes; outside memory it raises OutOfBounds and nothing but FAULT
changes. -/
def Obligations.RegisterRangeIsStored : Prop :=
  ∀ (s : State) (x : Reg),
    (s.i.toNat + x.val < 4096 → ∃ t, exec (.ldMemVx x) s = .next t ∧
      (∀ k : Reg, k ≤ x → t.byteAt (s.i.toNat + k.val) = s.reg k) ∧
      (∀ a, ¬(s.i.toNat ≤ a ∧ a ≤ s.i.toNat + x.val) → t.byteAt a = s.byteAt a) ∧
      t = { s with mem := t.mem, pc := s.pc + 2 }) ∧
    (4096 ≤ s.i.toNat + x.val → exec (.ldMemVx x) s = .next { s with fault :=
      { kind := some .outOfBounds, pc := s.pc, opcode := 0xF#4 ++ nibble x ++ 0x55#8 } })

/-- R116: V[0] to V[x] from I to I + x, and nothing else changes; outside memory it raises OutOfBounds and nothing but FAULT
changes. -/
def Obligations.RegisterRangeIsLoaded : Prop :=
  ∀ (s : State) (x : Reg),
    (s.i.toNat + x.val < 4096 → ∃ t, exec (.ldVxMem x) s = .next t ∧
      (∀ k : Reg, k ≤ x → t.reg k = s.byteAt (s.i.toNat + k.val)) ∧ (∀ k : Reg, x < k → t.reg k = s.reg k) ∧
      t = { s with v := t.v, pc := s.pc + 2 }) ∧
    (4096 ≤ s.i.toNat + x.val → exec (.ldVxMem x) s = .next { s with fault :=
      { kind := some .outOfBounds, pc := s.pc, opcode := 0xF#4 ++ nibble x ++ 0x65#8 } })

/-- A range stored by `FX55` and loaded back by `FX65` gives the registers again, with anything done to the registers in
between (R115, R116, R39). -/
def Obligations.LoadAfterStoreGivesTheRegisters : Prop :=
  ∀ (s t u : State) (x : Reg), s.i.toNat + x.val < 4096 → exec (.ldMemVx x) s = .next t → u.i = s.i → u.mem = t.mem →
    ∃ w, exec (.ldVxMem x) u = .next w ∧ ∀ k : Reg, k ≤ x → w.reg k = s.reg k

/-- The spec's own inference R42: bytes stored by `FX55` or `FX33` are what the fetch reads when PC reaches them, in any later
state with that memory: the first byte of the fetched word where PC is the byte's address, the second where PC is the address
before it. -/
def Obligations.StoredBytesAreFetched : Prop :=
  (∀ (s t u : State) (x k : Reg), s.i.toNat + x.val < 4096 → exec (.ldMemVx x) s = .next t → k ≤ x → u.mem = t.mem →
    (u.pc.toNat = s.i.toNat + k.val → u.fetchedWord.toNat / 256 = (s.reg k).toNat) ∧
    (u.pc.toNat + 1 = s.i.toNat + k.val → u.fetchedWord.toNat % 256 = (s.reg k).toNat)) ∧
  ∀ (s t u : State) (x : Reg) (k digit : Nat), s.i.toNat + 2 < 4096 → exec (.ldBVx x) s = .next t → u.mem = t.mem →
    (k = 0 ∧ digit = (s.reg x).toNat / 100 ∨ k = 1 ∧ digit = (s.reg x).toNat / 10 % 10 ∨
      k = 2 ∧ digit = (s.reg x).toNat % 10) →
    (u.pc.toNat = s.i.toNat + k → u.fetchedWord.toNat / 256 = digit) ∧
    (u.pc.toNat + 1 = s.i.toNat + k → u.fetchedWord.toNat % 256 = digit)

/-- R36: an access whose last byte lies at 4096 or above raises OutOfBounds and changes nothing but FAULT; the comparison is
on unbounded integers; an access of zero bytes cannot fault, whatever I holds (decision D2). -/
def Obligations.DataOutOfBoundsFaults : Prop :=
  (∀ (s : State) (i : Instr) (x y : Reg) (n : Height),
    (i = .ldBVx x ∧ 4096 ≤ s.i.toNat + 2) ∨ ((i = .ldMemVx x ∨ i = .ldVxMem x) ∧ 4096 ≤ s.i.toNat + x.val) ∨
      (i = .drw x y n ∧ 0 < n.val ∧ 4096 ≤ s.i.toNat + (n.val - 1)) →
    exec i s = .next { s with fault := { kind := some .outOfBounds, pc := s.pc, opcode := encode i } }) ∧
  ∀ (s : State) (x y : Reg), ∃ t, exec (.drw x y 0) s = .next t ∧ t.fault = s.fault

/-- Two memories in canonical form that read the same everywhere are the same list (the model's own representation, log
entry 6). -/
def Obligations.CanonicalMemoryIsUnique : Prop :=
  ∀ m m' : List Host.Cell, Memory.wf m → Memory.wf m' → (∀ a, Memory.read m a = Memory.read m' a) → m = m'

/-! ### Results: display -/

/-- R121: every pixel is off, and nothing else changes, VF among them. -/
def Obligations.ClearTurnsEveryPixelOff : Prop :=
  ∀ s : State, ∃ t, exec .cls s = .next t ∧ (∀ row col, t.pixel row col = false) ∧
    t = { s with fb := t.fb, pc := s.pc + 2 }

/-- R122: with the sprite inside memory (always so for height 0, decision D26), each pixel becomes its old value XOR the
sprite bit that maps to it with both coordinates wrapped, VF is 1 when a sprite bit 1 met an on pixel and else 0, and nothing
else changes; with its last byte outside memory the draw raises OutOfBounds and nothing but FAULT changes. -/
def Obligations.DrawXorsTheSprite : Prop :=
  ∀ (s : State) (x y : Reg) (n : Height),
    ((0 < n.val → s.i.toNat + n.val - 1 < 4096) → ∃ t, exec (.drw x y n) s = .next t ∧
      (∀ row col, t.pixel row col = (s.pixel row col ^^
        spriteBitAt (s.reg x).toNat (s.reg y).toNat (Memory.readAll s.mem s.i.toNat n.val) row col)) ∧
      ((∃ row col, s.pixel row col = true ∧
        spriteBitAt (s.reg x).toNat (s.reg y).toNat (Memory.readAll s.mem s.i.toNat n.val) row col = true) →
          t.reg 15 = 1) ∧
      ((∀ row col, s.pixel row col = true →
        spriteBitAt (s.reg x).toNat (s.reg y).toNat (Memory.readAll s.mem s.i.toNat n.val) row col = false) →
          t.reg 15 = 0) ∧
      (∀ r, r ≠ 15 → t.reg r = s.reg r) ∧ t = { s with v := t.v, fb := t.fb, pc := s.pc + 2 }) ∧
    (0 < n.val → 4096 ≤ s.i.toNat + n.val - 1 → exec (.drw x y n) s = .next { s with fault :=
      { kind := some .outOfBounds, pc := s.pc, opcode := 0xD#4 ++ nibble x ++ nibble y ++ nibble n } })

/-- The spec's own inference R123, with R122 (f): two identical draws in succession, with neither origin register VF, restore the framebuffer; the second reports a
collision, from a clear screen, exactly when the sprite has a 1 bit. -/
def Obligations.DrawTwiceRestoresTheScreen : Prop :=
  ∀ (s t u : State) (x y : Reg) (n : Height), x ≠ 15 → y ≠ 15 → (0 < n.val → s.i.toNat + n.val - 1 < 4096) →
    exec (.drw x y n) s = .next t → exec (.drw x y n) t = .next u →
      (∀ row col, u.pixel row col = s.pixel row col) ∧
      ((∀ row col, s.pixel row col = false) →
        ((∃ k < n.val, s.byteAt (s.i.toNat + k) ≠ 0) ↔ u.reg 15 = 1))

/-! ### Results: keypad and timers -/

/-- R131, R132: the two key skips, on the key that V[x]'s low nibble names (decision D11); nothing but PC changes. -/
def Obligations.KeySkips : Prop :=
  ∀ (s : State) (x k : Reg), (s.reg x).toNat % 16 = k.val →
    exec (.skp x) s = .next { s with pc := if s.pressed k = true then s.pc + 4 else s.pc + 2 } ∧
    exec (.sknp x) s = .next { s with pc := if s.pressed k = false then s.pc + 4 else s.pc + 2 }

/-- R134: with a key pressed the wait completes, V[x] is the least pressed key's number and nothing else changes; with none
pressed PC stays at the instruction and nothing changes (decision D12). -/
def Obligations.KeyWaitTakesTheLeastKey : Prop :=
  (∀ (s : State) (x k : Reg), s.pressed k = true → (∀ j : Reg, j < k → s.pressed j = false) →
    ∃ t, exec (.ldVxK x) s = .next t ∧ (t.reg x).toNat = k.val ∧ (∀ r, r ≠ x → t.reg r = s.reg r) ∧
      t = { s with v := t.v, pc := s.pc + 2 }) ∧
  ∀ (s : State) (x : Reg), (∀ k, s.pressed k = false) → exec (.ldVxK x) s = .next s

/-- R75: a step that meets the wait with no key pressed leaves the whole state as it is, PC included, with no fault; ticks and
key snapshots between such steps act, and once a snapshot shows a key the next step completes. -/
def Obligations.KeyWaitLeavesTheState : Prop :=
  ∀ (s : State) (x : Reg), s.fault.kind = none → s.fetchDecode = .ok (.ldVxK x) → (∀ k, s.pressed k = false) →
    step s = .next s ∧ step (tick s) = .next (tick s) ∧
      ∀ (keys : Vector Bool 16) (k : Reg), keys.get k = true →
        ∃ t, step (setKeys keys s) = .next t ∧ t.pc = s.pc + 2

/-- R133, R135, R136: the timer transfers; nothing else changes. -/
def Obligations.TimerTransfers : Prop :=
  ∀ (s : State) (x : Reg),
    (∃ t, exec (.ldVxDt x) s = .next t ∧ t.reg x = s.dt ∧ (∀ r, r ≠ x → t.reg r = s.reg r) ∧
      t = { s with v := t.v, pc := s.pc + 2 }) ∧
    exec (.ldDtVx x) s = .next { s with dt := s.reg x, pc := s.pc + 2 } ∧
    exec (.ldStVx x) s = .next { s with st := s.reg x, pc := s.pc + 2 }

/-! ### Frames: what every instruction leaves unchanged -/

/-- FRAME, registers (R11, R73, R90): every register is unchanged but those the instruction names as destination or writes
as the flag. -/
def Obligations.RegisterFrame : Prop :=
  ∀ (i : Instr) (s t : State), exec i s = .next t → ∀ r, writesReg i r = false → t.reg r = s.reg r

/-- FRAME, memory (R33): only FX33 and FX55 write it, and only the bytes they store to. -/
def Obligations.MemoryFrame : Prop :=
  ∀ (i : Instr) (s t : State), exec i s = .next t → ∀ a : Nat,
    (∀ x, i = .ldBVx x → ¬(s.i.toNat ≤ a ∧ a < s.i.toNat + 3)) →
    (∀ x, i = .ldMemVx x → ¬(s.i.toNat ≤ a ∧ a < s.i.toNat + x.val + 1)) → t.byteAt a = s.byteAt a

/-- FRAME, I and the stack (R12, R14, R110): only ANNN, FX1E and FX29 change I; only CALL and RET change the stack or SP. -/
def Obligations.IndexAndStackFrame : Prop :=
  ∀ (i : Instr) (s t : State), exec i s = .next t →
    ((∀ nnn, i ≠ .ldINnn nnn) → (∀ x, i ≠ .addIVx x) → (∀ x, i ≠ .ldFVx x) → t.i = s.i) ∧
    ((∀ nnn, i ≠ .call nnn) → i ≠ .ret → t.sp = s.sp ∧ t.stack = s.stack)

/-- FRAME, timers (R15, R130): only FX15 changes DT and only FX18 changes ST; no step counts a timer. -/
def Obligations.TimerFrame : Prop :=
  ∀ (i : Instr) (s t : State), exec i s = .next t →
    ((∀ x, i ≠ .ldDtVx x) → t.dt = s.dt) ∧ ((∀ x, i ≠ .ldStVx x) → t.st = s.st)

/-- FRAME, keypad and screen (R16, R17, R120): no instruction changes KEY; only 00E0 and DXYN change FB. -/
def Obligations.KeypadAndScreenFrame : Prop :=
  ∀ (i : Instr) (s t : State), exec i s = .next t →
    t.key = s.key ∧ (i ≠ .cls → (∀ x y n, i ≠ .drw x y n) → t.fb = s.fb)

/-- R73, R75: an instruction that does not fault and is no jump, call, return, skip or unsuccessful wait ends with PC = npc. -/
def Obligations.SequentialPc : Prop :=
  ∀ (i : Instr) (s t : State), exec i s = .next t → faultOf s i = none →
    (∀ nnn, i ≠ .jp nnn ∧ i ≠ .call nnn ∧ i ≠ .jpV0 nnn) → i ≠ .ret →
    (∀ x nn, i ≠ .seVxNn x nn ∧ i ≠ .sneVxNn x nn) → (∀ x y, i ≠ .seVxVy x y ∧ i ≠ .sneVxVy x y) →
    (∀ x, i ≠ .skp x ∧ i ≠ .sknp x) → (∀ x, i = .ldVxK x → ∃ k, s.pressed k = true) → t.pc = s.pc + 2

/-! ### Independence of the environment -/

/-- A tick before an instruction or after it gives the same state, for every instruction that neither reads nor writes a
timer (R15, R130, R144). -/
def Obligations.TickCommutesWithOtherInstructions : Prop :=
  ∀ (i : Instr) (s t : State), (∀ x, i ≠ .ldVxDt x ∧ i ≠ .ldDtVx x ∧ i ≠ .ldStVx x) → exec i s = .next t →
    exec i (tick s) = .next (tick t)

/-- New keys before an instruction or after it give the same state, for every instruction that does not read the keypad
(R16, R143). -/
def Obligations.SetKeysCommutesWithOtherInstructions : Prop :=
  ∀ (i : Instr) (s t : State) (keys : Vector Bool 16), (∀ x, i ≠ .skp x ∧ i ≠ .sknp x ∧ i ≠ .ldVxK x) →
    exec i s = .next t → exec i (setKeys keys s) = .next (setKeys keys t)

/-! ### Invariants -/

/-- The invariant holds after reset. -/
def Obligations.ResetMeetsTheInvariant : Prop := State.reset.Inv

/-- HEADLINE. Every step keeps the invariant, from every state that meets it: memory stays canonical, PC stays at most
0x10FE (the spec's own inference in R13), every stack entry in use stays a possible return address (R81), and FAULT agrees with the state (R151, R155). -/
def Obligations.StepKeepsTheInvariant : Prop := ∀ s t : State, s.Inv → step s = .next t → t.Inv

/-- HEADLINE. Every sequence of the six operations, in any order, keeps the invariant (R146). -/
def Obligations.EveryInterleavingKeepsTheInvariant : Prop :=
  ∀ (ops : List HostOp) (s t : State), s.Inv → performAll ops s = .next t → t.Inv
end

