-- ==== Sys2Proof/Laws/Decode.lean ====
section
/-!
SUPPORT. Words, bytes and fields as numbers (spec/30_encoding.md R50 to R52): each field is a quotient and remainder of the
word, each format's word is the sum of its fields, so that questions of encoding become linear arithmetic.
-/

namespace Sys2Proof

theorem append_toNat {m n : Nat} (a : BitVec m) (b : BitVec n) : (a ++ b).toNat = a.toNat * 2 ^ n + b.toNat := by
  rw [BitVec.toNat_append, ← Nat.shiftLeft_add_eq_or_of_lt b.isLt, Nat.shiftLeft_eq]

theorem extract_toNat {w : Nat} (start len : Nat) (a : BitVec w) :
    (a.extractLsb' start len).toNat = a.toNat / 2 ^ start % 2 ^ len := by
  rw [BitVec.extractLsb'_toNat, Nat.shiftRight_eq_div_pow]

theorem wordOfBytes_toNat (hi lo : Byte) : (wordOfBytes hi lo).toNat = hi.toNat * 256 + lo.toNat := append_toNat hi lo

theorem wordNNN_toNat (f : BitVec 4) (nnn : Addr12) : (wordNNN f nnn).toNat = f.toNat * 4096 + nnn.toNat := append_toNat f nnn

theorem nibble_toNat (k : Fin 16) : (nibble k).toNat = k.val := rfl

theorem wordXNN_toNat (f : BitVec 4) (x : Reg) (nn : Byte) :
    (wordXNN f x nn).toNat = f.toNat * 4096 + x.val * 256 + nn.toNat := by
  have h : (wordXNN f x nn).toNat = (f ++ nibble x).toNat * 256 + nn.toNat := append_toNat (f ++ nibble x) nn
  have h' : (f ++ nibble x).toNat = f.toNat * 16 + x.val := append_toNat f (nibble x)
  rw [h, h', Nat.add_mul, Nat.mul_assoc]

theorem wordXYN_toNat (f : BitVec 4) (x y n : Fin 16) :
    (wordXYN f x y n).toNat = f.toNat * 4096 + x.val * 256 + y.val * 16 + n.val := by
  have h : (wordXYN f x y n).toNat = (f ++ nibble x ++ nibble y).toNat * 16 + n.val :=
    append_toNat (f ++ nibble x ++ nibble y) (nibble n)
  have h' : (f ++ nibble x ++ nibble y).toNat = (f ++ nibble x).toNat * 16 + y.val :=
    append_toNat (f ++ nibble x) (nibble y)
  have h'' : (f ++ nibble x).toNat = f.toNat * 16 + x.val := append_toNat f (nibble x)
  rw [h, h', h'']
  ring

theorem highByte_toNat (op : Word) : (highByte op).toNat = op.toNat / 256 := by
  have h := extract_toNat 8 8 op
  have := op.isLt
  unfold highByte; omega

theorem lowByte_toNat (op : Word) : (lowByte op).toNat = op.toNat % 256 := by
  have h := extract_toNat 0 8 op
  unfold lowByte; omega

theorem famOf_val (op : Word) : (famOf op).val = op.toNat / 4096 := by
  have h := extract_toNat 12 4 op
  have := op.isLt
  show (op.extractLsb' 12 4).toNat = _
  omega

theorem xOf_val (op : Word) : (xOf op).val = op.toNat / 256 % 16 := extract_toNat 8 4 op

theorem yOf_val (op : Word) : (yOf op).val = op.toNat / 16 % 16 := extract_toNat 4 4 op

theorem nOf_val (op : Word) : (nOf op).val = op.toNat % 16 := by
  have h := extract_toNat 0 4 op
  show (op.extractLsb' 0 4).toNat = _
  omega

theorem nnOf_toNat (op : Word) : (nnOf op).toNat = op.toNat % 256 := by
  have h := extract_toNat 0 8 op
  unfold nnOf; omega

theorem nnnOf_toNat (op : Word) : (nnnOf op).toNat = op.toNat % 4096 := by
  have h := extract_toNat 0 12 op
  unfold nnnOf; omega

/-- The two bytes of a word make the word again (R50). -/
theorem wordOfBytes_of_word (op : Word) : wordOfBytes (highByte op) (lowByte op) = op := by
  apply BitVec.eq_of_toNat_eq
  rw [wordOfBytes_toNat, highByte_toNat, lowByte_toNat]
  omega

theorem wordNNN_fields (f : BitVec 4) (nnn : Addr12) :
    famOf (wordNNN f nnn) = f.toFin ∧ nnnOf (wordNNN f nnn) = nnn := by
  have h := wordNNN_toNat f nnn
  have := nnn.isLt
  refine ⟨Fin.ext ?_, BitVec.eq_of_toNat_eq ?_⟩
  · rw [famOf_val]; show _ = f.toNat; omega
  · rw [nnnOf_toNat]; omega

theorem wordXNN_fields (f : BitVec 4) (x : Reg) (nn : Byte) :
    famOf (wordXNN f x nn) = f.toFin ∧ xOf (wordXNN f x nn) = x ∧ nnOf (wordXNN f x nn) = nn := by
  have h := wordXNN_toNat f x nn
  have := nn.isLt
  refine ⟨Fin.ext ?_, Fin.ext ?_, BitVec.eq_of_toNat_eq ?_⟩
  · rw [famOf_val]; show _ = f.toNat; omega
  · rw [xOf_val]; omega
  · rw [nnOf_toNat]; omega

theorem wordXYN_fields (f : BitVec 4) (x y n : Fin 16) :
    famOf (wordXYN f x y n) = f.toFin ∧ xOf (wordXYN f x y n) = x ∧ yOf (wordXYN f x y n) = y ∧
      nOf (wordXYN f x y n) = n := by
  have h := wordXYN_toNat f x y n
  refine ⟨Fin.ext ?_, Fin.ext ?_, Fin.ext ?_, Fin.ext ?_⟩
  · rw [famOf_val]; show _ = f.toNat; omega
  · rw [xOf_val]; omega
  · rw [yOf_val]; omega
  · rw [nOf_val]; omega

/-! ### Masks -/

theorem maskFamily_toNat (w : Word) : (w &&& 0xF000#16).toNat = w.toNat / 4096 * 4096 := by
  have h : w &&& 0xF000#16 = (w >>> 12) <<< 12 := by
    ext k hk
    interval_cases k <;> simp
  have := w.isLt
  rw [h, BitVec.toNat_shiftLeft, BitVec.toNat_ushiftRight, Nat.shiftLeft_eq, Nat.shiftRight_eq_div_pow]
  omega

theorem maskLow_toNat (w : Word) (j : Nat) (hj : j ≤ 12) :
    (w &&& BitVec.ofNat 16 (2 ^ j - 1)).toNat = w.toNat % 2 ^ j := by
  have h1 : 2 ^ j ≤ 2 ^ 12 := Nat.pow_le_pow_right (by omega) hj
  rw [BitVec.toNat_and, BitVec.toNat_ofNat, Nat.mod_eq_of_lt (by omega), Nat.and_two_pow_sub_one_eq_mod]

theorem or_toNat_disjoint (a b : Word) (h : a.toNat % 4096 = 0) (hb : b.toNat < 4096) :
    (a ||| b).toNat = a.toNat + b.toNat := by
  rw [BitVec.toNat_or]
  have := Nat.shiftLeft_add_eq_or_of_lt (i := 12) hb (a.toNat / 4096)
  rw [Nat.shiftLeft_eq, Nat.div_mul_cancel (Nat.dvd_of_mod_eq_zero h)] at this
  exact this.symm

theorem maskNibble_toNat (w : Word) : (w &&& 0xF00F#16).toNat = w.toNat / 4096 * 4096 + w.toNat % 16 := by
  have e : (0xF00F#16 : Word) = 0xF000#16 ||| 0x000F#16 := by decide
  have h1 := maskFamily_toNat w
  have h2 : (w &&& 0x000F#16).toNat = w.toNat % 16 := maskLow_toNat w 4 (by omega)
  rw [e, BitVec.and_or_distrib_left, or_toNat_disjoint _ _ (by omega) (by omega), h1, h2]

theorem maskByte_toNat (w : Word) : (w &&& 0xF0FF#16).toNat = w.toNat / 4096 * 4096 + w.toNat % 256 := by
  have e : (0xF0FF#16 : Word) = 0xF000#16 ||| 0x00FF#16 := by decide
  have h1 := maskFamily_toNat w
  have h2 : (w &&& 0x00FF#16).toNat = w.toNat % 256 := maskLow_toNat w 8 (by omega)
  rw [e, BitVec.and_or_distrib_left, or_toNat_disjoint _ _ (by omega) (by omega), h1, h2]

theorem OpcodeRow.selects_iff (r : OpcodeRow) (w : Word) :
    r.selects w = true ↔ (w &&& r.mask).toNat = r.pattern.toNat := by
  rw [OpcodeRow.selects, beq_iff_eq]
  exact BitVec.toNat_inj.symm

theorem selects_whole (m : String) (p w : Word) :
    (OpcodeRow.mk m 0xFFFF#16 p).selects w = true ↔ w.toNat = p.toNat := by
  have : w &&& 0xFFFF#16 = w := BitVec.and_allOnes
  rw [OpcodeRow.selects_iff, this]

theorem selects_family (m : String) (p w : Word) :
    (OpcodeRow.mk m 0xF000#16 p).selects w = true ↔ w.toNat / 4096 * 4096 = p.toNat := by
  rw [OpcodeRow.selects_iff, maskFamily_toNat]

theorem selects_nibble (m : String) (p w : Word) :
    (OpcodeRow.mk m 0xF00F#16 p).selects w = true ↔ w.toNat / 4096 * 4096 + w.toNat % 16 = p.toNat := by
  rw [OpcodeRow.selects_iff, maskNibble_toNat]

theorem selects_byte (m : String) (p w : Word) :
    (OpcodeRow.mk m 0xF0FF#16 p).selects w = true ↔ w.toNat / 4096 * 4096 + w.toNat % 256 = p.toNat := by
  rw [OpcodeRow.selects_iff, maskByte_toNat]

end Sys2Proof
end

