-- ==== Sys2Proof/Laws/Memory.lean ====
section
/-!
SUPPORT. The laws of memory: a byte written reads back, every other byte is left alone, and every operation keeps the
canonical form (spec/20_memory.md R39).
-/

namespace Sys2Proof.Machine

@[simp] theorem Memory.read_nil (a : Nat) : Memory.read [] a = Memory.unlisted a := rfl

theorem Memory.read_cons (c : Host.Cell) (m : List Host.Cell) (a : Nat) :
    Memory.read (c :: m) a = if c.1 = a then c.2 else Memory.read m a := by
  by_cases h : c.1 = a <;> simp [Memory.read, h]

theorem Memory.read_of_absent {m : List Host.Cell} {a : Nat} (h : ∀ c ∈ m, c.1 ≠ a) :
    Memory.read m a = Memory.unlisted a := by
  induction m with
  | nil => rfl
  | cons c m ih =>
    rw [Memory.read_cons, if_neg (h c (by simp)), ih fun d hd => h d (by simp [hd])]

theorem Memory.read_filter_other {m : List Host.Cell} {a a' : Nat} (h : a' ≠ a) :
    Memory.read (m.filter fun c => c.1 != a) a' = Memory.read m a' := by
  induction m with
  | nil => rfl
  | cons c m ih =>
    by_cases hc : c.1 = a
    · have : c.1 ≠ a' := fun e => h (e.symm.trans hc)
      simp [hc, Memory.read_cons, ih, Ne.symm h]
    · simp [hc, Memory.read_cons, ih]

theorem Memory.read_insertCell (a : Nat) (b : Byte) {m : List Host.Cell} (hm : ∀ c ∈ m, c.1 ≠ a) (a' : Nat) :
    Memory.read (Memory.insertCell a b m) a' = if a = a' then b else Memory.read m a' := by
  induction m with
  | nil => simp [Memory.insertCell, Memory.read_cons]
  | cons c m ih =>
    have ih := ih fun d hd => hm d (by simp [hd])
    have hc : c.1 ≠ a := hm c (by simp)
    by_cases h : a < c.1
    · simp [Memory.insertCell, h, Memory.read_cons]
    · rw [Memory.insertCell, if_neg h, Memory.read_cons, ih, Memory.read_cons]
      by_cases h1 : c.1 = a'
      · rw [if_pos h1, if_neg (fun e => hc (h1.trans e.symm)), if_pos h1]
      · rw [if_neg h1, if_neg h1]

theorem Memory.filter_absent (m : List Host.Cell) (a : Nat) : ∀ c ∈ m.filter (fun c => c.1 != a), c.1 ≠ a := by
  intro c hc
  simpa using (List.mem_filter.mp hc).2

/-- Read after write: the byte written at its own address, the old byte at every other (R39). -/
theorem Memory.read_write (m : List Host.Cell) (a : Nat) (b : Byte) (a' : Nat) :
    Memory.read (Memory.write m a b) a' = if a = a' then b else Memory.read m a' := by
  unfold Memory.write
  by_cases hb : b = Memory.unlisted a
  · rw [if_pos hb]
    by_cases h : a = a'
    · subst h; rw [if_pos rfl, Memory.read_of_absent (Memory.filter_absent m a), hb]
    · rw [if_neg h, Memory.read_filter_other (Ne.symm h)]
  · rw [if_neg hb, Memory.read_insertCell a b (Memory.filter_absent m a)]
    by_cases h : a = a'
    · rw [if_pos h, if_pos h]
    · rw [if_neg h, if_neg h, Memory.read_filter_other (Ne.symm h)]

/-- Reading after storing bytes at ascending addresses: inside the range the byte stored there, outside the old byte (R37). -/
theorem Memory.read_writeAll (bs : List Byte) (m : List Host.Cell) (a a' : Nat) :
    Memory.read (Memory.writeAll m a bs) a' =
      if a ≤ a' ∧ a' < a + bs.length then bs.getD (a' - a) 0 else Memory.read m a' := by
  induction bs generalizing m a with
  | nil =>
    have h : ¬(a ≤ a' ∧ a' < a + ([] : List Byte).length) := by simp
    rw [Memory.writeAll, if_neg h]
  | cons b bs ih =>
    rw [Memory.writeAll, ih, Memory.read_write]
    simp only [List.length_cons]
    by_cases h0 : a = a'
    · subst h0; simp
    · by_cases h1 : a + 1 ≤ a' ∧ a' < a + 1 + bs.length
      · have h2 : a ≤ a' ∧ a' < a + (bs.length + 1) := by omega
        have h3 : a' - a = (a' - (a + 1)) + 1 := by omega
        rw [if_pos h1, if_pos h2, h3, List.getD_cons_succ]
      · have h2 : ¬(a ≤ a' ∧ a' < a + (bs.length + 1)) := by omega
        rw [if_neg h1, if_neg h0, if_neg h2]

theorem Memory.readAll_length (m : List Host.Cell) (a len : Nat) : (Memory.readAll m a len).length = len := by
  simp [Memory.readAll]

theorem Memory.readAll_getD (m : List Host.Cell) (a : Nat) {len k : Nat} (h : k < len) :
    (Memory.readAll m a len).getD k 0 = Memory.read m (a + k) := by
  simp [Memory.readAll, List.getD_eq_getElem?_getD, h]

theorem Memory.insertCell_mem {a : Nat} {b : Byte} {m : List Host.Cell} {c : Host.Cell}
    (h : c ∈ Memory.insertCell a b m) : c = (a, b) ∨ c ∈ m := by
  induction m with
  | nil => simpa [Memory.insertCell] using h
  | cons d m ih =>
    rw [Memory.insertCell] at h
    split at h
    · simpa using h
    · rcases List.mem_cons.mp h with h | h
      · exact .inr (by simp [h])
      · exact (ih h).imp id fun h => by simp [h]

theorem Memory.insertCell_sorted (a : Nat) (b : Byte) {m : List Host.Cell}
    (hs : m.Pairwise fun c d => c.1 < d.1) (hm : ∀ c ∈ m, c.1 ≠ a) :
    (Memory.insertCell a b m).Pairwise fun c d => c.1 < d.1 := by
  induction m with
  | nil => simp [Memory.insertCell]
  | cons c m ih =>
    obtain ⟨hc, hs'⟩ := List.pairwise_cons.mp hs
    rw [Memory.insertCell]
    split
    · next h =>
      refine List.pairwise_cons.mpr ⟨fun d hd => ?_, hs⟩
      rcases List.mem_cons.mp hd with rfl | hd
      · exact h
      · exact h.trans (hc d hd)
    · next h =>
      have hne : c.1 ≠ a := hm c (by simp)
      refine List.pairwise_cons.mpr ⟨fun d hd => ?_, ih hs' fun d hd => hm d (by simp [hd])⟩
      rcases Memory.insertCell_mem hd with rfl | hd
      · show c.1 < a; omega
      · exact hc d hd

/-- Storing a byte inside the address space keeps the canonical form. -/
theorem Memory.write_wf {m : List Host.Cell} (h : Memory.wf m) {a : Nat} (ha : a < Config.memSize) (b : Byte) :
    Memory.wf (Memory.write m a b) := by
  obtain ⟨hs, hm⟩ := h
  have hs' : (m.filter fun c => c.1 != a).Pairwise fun c d => c.1 < d.1 := hs.sublist List.filter_sublist
  have hm' : ∀ c ∈ m.filter (fun c => c.1 != a), c.1 < Config.memSize ∧ c.2 ≠ Memory.unlisted c.1 :=
    fun c hc => hm c (List.mem_filter.mp hc).1
  unfold Memory.write
  split
  · exact ⟨hs', hm'⟩
  · next hb =>
    refine ⟨Memory.insertCell_sorted a b hs' (Memory.filter_absent m a), fun c hc => ?_⟩
    rcases Memory.insertCell_mem hc with rfl | hc
    · exact ⟨ha, hb⟩
    · exact hm' c hc

/-- Storing bytes inside the address space keeps the canonical form. -/
theorem Memory.writeAll_wf (bs : List Byte) {m : List Host.Cell} (h : Memory.wf m) {a : Nat}
    (ha : a + bs.length ≤ Config.memSize) : Memory.wf (Memory.writeAll m a bs) := by
  induction bs generalizing m a with
  | nil => exact h
  | cons b bs ih =>
    simp only [List.length_cons] at ha
    exact ih (Memory.write_wf h (by omega) b) (by omega)

/-- Reset memory is in canonical form. -/
theorem Memory.reset_wf : Memory.wf State.reset.mem :=
  ⟨List.Pairwise.nil, fun _ h => nomatch h⟩

end Sys2Proof.Machine
end

