-- ==== Sys2Proof/Laws/State.lean ====
section
/-!
SUPPORT. What each basic update of State does to each field and to each accessor, so that no proof unfolds a record update.
-/

namespace Sys2Proof.Machine

variable (s : State)

@[simp] theorem State.setReg_v (x : Reg) (b : Byte) : (s.setReg x b).v = s.v.set x b := rfl
@[simp] theorem State.setReg_i (x : Reg) (b : Byte) : (s.setReg x b).i = s.i := rfl
@[simp] theorem State.setReg_pc (x : Reg) (b : Byte) : (s.setReg x b).pc = s.pc := rfl
@[simp] theorem State.setReg_stack (x : Reg) (b : Byte) : (s.setReg x b).stack = s.stack := rfl
@[simp] theorem State.setReg_sp (x : Reg) (b : Byte) : (s.setReg x b).sp = s.sp := rfl
@[simp] theorem State.setReg_dt (x : Reg) (b : Byte) : (s.setReg x b).dt = s.dt := rfl
@[simp] theorem State.setReg_st (x : Reg) (b : Byte) : (s.setReg x b).st = s.st := rfl
@[simp] theorem State.setReg_key (x : Reg) (b : Byte) : (s.setReg x b).key = s.key := rfl
@[simp] theorem State.setReg_fb (x : Reg) (b : Byte) : (s.setReg x b).fb = s.fb := rfl
@[simp] theorem State.setReg_mem (x : Reg) (b : Byte) : (s.setReg x b).mem = s.mem := rfl
@[simp] theorem State.setReg_fault (x : Reg) (b : Byte) : (s.setReg x b).fault = s.fault := rfl
@[simp] theorem State.setReg_draws (x : Reg) (b : Byte) : (s.setReg x b).draws = s.draws := rfl
@[simp] theorem State.setReg_byteAt (x : Reg) (b : Byte) (y : Nat) : (s.setReg x b).byteAt y = s.byteAt y := rfl
@[simp] theorem State.setReg_pressed (x : Reg) (b : Byte) (y : Reg) : (s.setReg x b).pressed y = s.pressed y := rfl
@[simp] theorem State.setReg_pixel (x : Reg) (b : Byte) (y : Fin 32) (z : Fin 64) : (s.setReg x b).pixel y z = s.pixel y z := rfl

@[simp] theorem State.storeBytes_v (a : Nat) (bs : List Byte) : (s.storeBytes a bs).v = s.v := rfl
@[simp] theorem State.storeBytes_i (a : Nat) (bs : List Byte) : (s.storeBytes a bs).i = s.i := rfl
@[simp] theorem State.storeBytes_pc (a : Nat) (bs : List Byte) : (s.storeBytes a bs).pc = s.pc := rfl
@[simp] theorem State.storeBytes_stack (a : Nat) (bs : List Byte) : (s.storeBytes a bs).stack = s.stack := rfl
@[simp] theorem State.storeBytes_sp (a : Nat) (bs : List Byte) : (s.storeBytes a bs).sp = s.sp := rfl
@[simp] theorem State.storeBytes_dt (a : Nat) (bs : List Byte) : (s.storeBytes a bs).dt = s.dt := rfl
@[simp] theorem State.storeBytes_st (a : Nat) (bs : List Byte) : (s.storeBytes a bs).st = s.st := rfl
@[simp] theorem State.storeBytes_key (a : Nat) (bs : List Byte) : (s.storeBytes a bs).key = s.key := rfl
@[simp] theorem State.storeBytes_fb (a : Nat) (bs : List Byte) : (s.storeBytes a bs).fb = s.fb := rfl
@[simp] theorem State.storeBytes_mem (a : Nat) (bs : List Byte) : (s.storeBytes a bs).mem = Memory.writeAll s.mem a bs := rfl
@[simp] theorem State.storeBytes_fault (a : Nat) (bs : List Byte) : (s.storeBytes a bs).fault = s.fault := rfl
@[simp] theorem State.storeBytes_draws (a : Nat) (bs : List Byte) : (s.storeBytes a bs).draws = s.draws := rfl
@[simp] theorem State.storeBytes_reg (a : Nat) (bs : List Byte) (y : Reg) : (s.storeBytes a bs).reg y = s.reg y := rfl
@[simp] theorem State.storeBytes_pressed (a : Nat) (bs : List Byte) (y : Reg) : (s.storeBytes a bs).pressed y = s.pressed y := rfl
@[simp] theorem State.storeBytes_pixel (a : Nat) (bs : List Byte) (y : Fin 32) (z : Fin 64) : (s.storeBytes a bs).pixel y z = s.pixel y z := rfl

@[simp] theorem State.setPc_v (p : Word) : (s.setPc p).v = s.v := rfl
@[simp] theorem State.setPc_i (p : Word) : (s.setPc p).i = s.i := rfl
@[simp] theorem State.setPc_pc (p : Word) : (s.setPc p).pc = p := rfl
@[simp] theorem State.setPc_stack (p : Word) : (s.setPc p).stack = s.stack := rfl
@[simp] theorem State.setPc_sp (p : Word) : (s.setPc p).sp = s.sp := rfl
@[simp] theorem State.setPc_dt (p : Word) : (s.setPc p).dt = s.dt := rfl
@[simp] theorem State.setPc_st (p : Word) : (s.setPc p).st = s.st := rfl
@[simp] theorem State.setPc_key (p : Word) : (s.setPc p).key = s.key := rfl
@[simp] theorem State.setPc_fb (p : Word) : (s.setPc p).fb = s.fb := rfl
@[simp] theorem State.setPc_mem (p : Word) : (s.setPc p).mem = s.mem := rfl
@[simp] theorem State.setPc_fault (p : Word) : (s.setPc p).fault = s.fault := rfl
@[simp] theorem State.setPc_draws (p : Word) : (s.setPc p).draws = s.draws := rfl
@[simp] theorem State.setPc_reg (p : Word) (y : Reg) : (s.setPc p).reg y = s.reg y := rfl
@[simp] theorem State.setPc_byteAt (p : Word) (y : Nat) : (s.setPc p).byteAt y = s.byteAt y := rfl
@[simp] theorem State.setPc_pressed (p : Word) (y : Reg) : (s.setPc p).pressed y = s.pressed y := rfl
@[simp] theorem State.setPc_pixel (p : Word) (y : Fin 32) (z : Fin 64) : (s.setPc p).pixel y z = s.pixel y z := rfl

@[simp] theorem State.advance_v : s.advance.v = s.v := rfl
@[simp] theorem State.advance_i : s.advance.i = s.i := rfl
@[simp] theorem State.advance_pc : s.advance.pc = s.pc + 2 := rfl
@[simp] theorem State.advance_stack : s.advance.stack = s.stack := rfl
@[simp] theorem State.advance_sp : s.advance.sp = s.sp := rfl
@[simp] theorem State.advance_dt : s.advance.dt = s.dt := rfl
@[simp] theorem State.advance_st : s.advance.st = s.st := rfl
@[simp] theorem State.advance_key : s.advance.key = s.key := rfl
@[simp] theorem State.advance_fb : s.advance.fb = s.fb := rfl
@[simp] theorem State.advance_mem : s.advance.mem = s.mem := rfl
@[simp] theorem State.advance_fault : s.advance.fault = s.fault := rfl
@[simp] theorem State.advance_draws : s.advance.draws = s.draws := rfl
@[simp] theorem State.advance_reg (y : Reg) : s.advance.reg y = s.reg y := rfl
@[simp] theorem State.advance_byteAt (y : Nat) : s.advance.byteAt y = s.byteAt y := rfl
@[simp] theorem State.advance_pressed (y : Reg) : s.advance.pressed y = s.pressed y := rfl
@[simp] theorem State.advance_pixel (y : Fin 32) (z : Fin 64) : s.advance.pixel y z = s.pixel y z := rfl

@[simp] theorem State.skipIf_v (c : Bool) : (s.skipIf c).v = s.v := rfl
@[simp] theorem State.skipIf_i (c : Bool) : (s.skipIf c).i = s.i := rfl
@[simp] theorem State.skipIf_pc (c : Bool) : (s.skipIf c).pc = if c then s.pc + 2 + 2 else s.pc + 2 := rfl
@[simp] theorem State.skipIf_stack (c : Bool) : (s.skipIf c).stack = s.stack := rfl
@[simp] theorem State.skipIf_sp (c : Bool) : (s.skipIf c).sp = s.sp := rfl
@[simp] theorem State.skipIf_dt (c : Bool) : (s.skipIf c).dt = s.dt := rfl
@[simp] theorem State.skipIf_st (c : Bool) : (s.skipIf c).st = s.st := rfl
@[simp] theorem State.skipIf_key (c : Bool) : (s.skipIf c).key = s.key := rfl
@[simp] theorem State.skipIf_fb (c : Bool) : (s.skipIf c).fb = s.fb := rfl
@[simp] theorem State.skipIf_mem (c : Bool) : (s.skipIf c).mem = s.mem := rfl
@[simp] theorem State.skipIf_fault (c : Bool) : (s.skipIf c).fault = s.fault := rfl
@[simp] theorem State.skipIf_draws (c : Bool) : (s.skipIf c).draws = s.draws := rfl
@[simp] theorem State.skipIf_reg (c : Bool) (y : Reg) : (s.skipIf c).reg y = s.reg y := rfl
@[simp] theorem State.skipIf_byteAt (c : Bool) (y : Nat) : (s.skipIf c).byteAt y = s.byteAt y := rfl
@[simp] theorem State.skipIf_pressed (c : Bool) (y : Reg) : (s.skipIf c).pressed y = s.pressed y := rfl
@[simp] theorem State.skipIf_pixel (c : Bool) (y : Fin 32) (z : Fin 64) : (s.skipIf c).pixel y z = s.pixel y z := rfl

theorem State.setReg_reg (x : Reg) (b : Byte) (y : Reg) :
    (s.setReg x b).reg y = if y = x then b else s.reg y := by
  by_cases h : y = x
  · subst h; simp [State.reg, State.setReg, Vector.get_eq_getElem]
  · have h' : x.val ≠ y.val := fun e => h (Fin.ext e.symm)
    simp only [State.reg, State.setReg, h, if_false]
    simp [Vector.get_eq_getElem, h']

@[simp] theorem State.setReg_reg_same (x : Reg) (b : Byte) : (s.setReg x b).reg x = b := by
  simp [State.setReg_reg]

theorem State.setReg_reg_other {x y : Reg} (b : Byte) (h : y ≠ x) : (s.setReg x b).reg y = s.reg y := by
  simp [State.setReg_reg, h]

theorem State.npc_eq : s.npc = s.pc + 2 := rfl

theorem State.storeBytes_byteAt (a : Nat) (bs : List Byte) (y : Nat) :
    (s.storeBytes a bs).byteAt y = Memory.read (Memory.writeAll s.mem a bs) y := rfl

end Sys2Proof.Machine
end

