-- ==== Sys2Proof/Laws/Ops.lean ====
section
/-!
SUPPORT. One lemma for each shared operation, saying once everything it can do; the proofs cite these and do not unfold the
operations.
-/

namespace Sys2Proof.Machine

variable (s : State)

/-! ### Stack -/

/-- A push with a free entry: the entry at SP is written, SP counts up, nothing else changes. -/
theorem State.push_of_room (v : Word) (h : s.sp.val < 16) :
    s.push v = some { s with stack := s.stack.set s.sp.val v, sp := ⟨s.sp.val + 1, by omega⟩ } := by
  simp [State.push, h]

theorem State.push_of_full (v : Word) (h : s.sp.val = 16) : s.push v = none := by
  simp [State.push, h]

/-- A pop with an entry: the top entry, SP counts down, nothing else changes. -/
theorem State.pop_of_entry (k : Fin 16) (h : s.sp.val = k.val + 1) :
    s.pop = some (s.stack.get k, { s with sp := ⟨k.val, by omega⟩ }) := by
  have h0 : 0 < s.sp.val := by omega
  simp [State.pop, h]

theorem State.pop_of_empty (h : s.sp.val = 0) : s.pop = none := by
  simp [State.pop, h]

theorem stack_get_set (st : Vector Word 16) (k : Nat) (hk : k < 16) (v : Word) (j : Fin 16) :
    (st.set k v).get j = if j.val = k then v else st.get j := by
  by_cases h : j.val = k
  · subst h; simp [Vector.get_eq_getElem]
  · simp [Vector.get_eq_getElem, h, Ne.symm h]

/-! ### Transfers -/

theorem State.outside_iff (k : Nat) : s.outside k = true ↔ 4096 ≤ s.i.toNat + k :=
  decide_eq_true_iff

theorem transfer_inside {last : Nat} (op : Word) (done : State) (h : s.i.toNat + last < 4096) :
    transfer last op s done = .next done.advance := by
  have : ¬ s.outside last = true := by rw [State.outside_iff]; omega
  simp [transfer, this]

theorem transfer_outside {last : Nat} (op : Word) (done : State) (h : 4096 ≤ s.i.toNat + last) :
    transfer last op s done = raise .outOfBounds op s := by
  simp [transfer, (State.outside_iff s last).mpr h]

/-- Every outcome of a transfer is a next state: the fault's, or `done` with PC = npc. -/
theorem transfer_cases {last : Nat} {op : Word} {done t : State} (h : transfer last op s done = .next t) :
    (4096 ≤ s.i.toNat + last ∧ t = { s with fault := { kind := some .outOfBounds, pc := s.pc, opcode := op } }) ∨
      (s.i.toNat + last < 4096 ∧ t = done.advance) := by
  by_cases hb : 4096 ≤ s.i.toNat + last
  · rw [transfer_outside s op done hb] at h
    exact .inl ⟨hb, (Host.Outcome.next.inj h).symm⟩
  · rw [transfer_inside s op done (by omega)] at h
    exact .inr ⟨by omega, (Host.Outcome.next.inj h).symm⟩

theorem decimalDigits_length (b : Byte) : (decimalDigits b).length = 3 := rfl

theorem State.regsUpTo_eq (x : Reg) : s.regsUpTo x = ((List.finRange 16).take (x.val + 1)).map s.reg := by
  unfold State.regsUpTo
  congr 1
  revert x
  decide

theorem State.regsUpTo_length (x : Reg) : (s.regsUpTo x).length = x.val + 1 := by
  rw [State.regsUpTo_eq]
  simp

/-- Entry `k` of the stored range is V[k]. -/
theorem State.regsUpTo_getD {x k : Reg} (h : k ≤ x) : (s.regsUpTo x).getD k.val 0 = s.reg k := by
  have hk : k.val < x.val + 1 := by have := Fin.le_def.mp h; omega
  rw [State.regsUpTo_eq, List.getD_eq_getElem?_getD, List.getElem?_map, List.getElem?_take_of_lt hk]
  simp

theorem State.loadRegsUpTo_reg (x k : Reg) :
    (s.loadRegsUpTo x).reg k = if k ≤ x then s.byteAt (s.i.toNat + k.val) else s.reg k := by
  simp [State.loadRegsUpTo, State.reg, Vector.get_eq_getElem, State.addressAt]

/-! ### Loading -/

theorem romFits_iff (rom : List Byte) : romFits rom = true ↔ rom.length ≤ 3584 := decide_eq_true_iff

theorem load_of_fits {rom : List Byte} (h : rom.length ≤ 3584) :
    load rom s = ((construct s).storeBytes 0x200 rom, .ok) := by
  rw [load, if_pos ((romFits_iff rom).mpr h)]; rfl

theorem load_of_too_large {rom : List Byte} (h : 3584 < rom.length) : load rom s = (s, .romTooLarge) := by
  rw [load, if_neg (by rw [romFits_iff]; omega)]

theorem countDown_toNat (b : Byte) : (countDown b).toNat = b.toNat - 1 := by
  unfold countDown
  split
  · rw [BitVec.toNat_sub]; have := b.isLt; simp; omega
  · omega

/-! ### Keypad -/

theorem State.firstPressed_eq_some {k : Reg} (h : s.pressed k = true) (hl : ∀ j : Reg, j < k → s.pressed j = false) :
    s.firstPressed = some k := by
  unfold State.firstPressed
  rw [List.find?_eq_some_iff_getElem]
  refine ⟨h, k.val, by simp, by simp, fun j hj => ?_⟩
  have hj' : (⟨j, by omega⟩ : Fin 16) < k := hj
  simpa using hl _ hj'

theorem State.firstPressed_eq_none (h : ∀ k, s.pressed k = false) : s.firstPressed = none := by
  simp [State.firstPressed, h]

/-- The least pressed key is pressed, and no lower one is. -/
theorem State.firstPressed_spec {k : Reg} (h : s.firstPressed = some k) : s.pressed k = true :=
  List.find?_some h

/-! ### Fetch and step -/

theorem State.fetchable_iff : s.fetchable = true ↔ s.pc.toNat + 1 < 4096 :=
  decide_eq_true_iff

theorem State.halted_iff : s.halted = true ↔ s.fault.kind ≠ none := by
  simp [State.halted, Option.isSome_iff_ne_none]

/-- What fetch and decode can answer. -/
theorem State.fetchDecode_ok {i : Instr} (hp : s.pc.toNat + 1 < 4096) (hd : decodeWord s.fetchedWord = some i) :
    s.fetchDecode = .ok i := by
  simp [State.fetchDecode, (State.fetchable_iff s).mpr hp, hd]

theorem State.fetchDecode_unknown (hp : s.pc.toNat + 1 < 4096) (hd : decodeWord s.fetchedWord = none) :
    s.fetchDecode = .error (.unknownOpcode, s.fetchedWord) := by
  simp [State.fetchDecode, (State.fetchable_iff s).mpr hp, hd]

theorem State.fetchDecode_outside (hp : 4096 ≤ s.pc.toNat + 1) : s.fetchDecode = .error (.outOfBounds, 0) := by
  have : ¬ s.fetchable = true := by rw [State.fetchable_iff]; omega
  simp [State.fetchDecode, this]

/-- An instruction that fetch and decode give was fetched inside memory and is what its word decodes to. -/
theorem State.fetchDecode_eq_ok {i : Instr} (h : s.fetchDecode = .ok i) :
    s.pc.toNat + 1 < 4096 ∧ decodeWord s.fetchedWord = some i := by
  by_cases hp : s.pc.toNat + 1 < 4096
  · cases hd : decodeWord s.fetchedWord with
    | none => rw [State.fetchDecode_unknown s hp hd] at h; cases h
    | some j => rw [State.fetchDecode_ok s hp hd] at h; cases h; exact ⟨hp, rfl⟩
  · rw [State.fetchDecode_outside s (by omega)] at h; cases h

theorem step_of_halted (h : s.fault.kind ≠ none) : step s = .next s := by
  simp [step, (State.halted_iff s).mpr h]

theorem step_of_ok {i : Instr} (hf : s.fault.kind = none) (h : s.fetchDecode = .ok i) : step s = exec i s := by
  simp [step, State.halted, hf, h]

theorem step_of_error {k : Fault} {op : Word} (hf : s.fault.kind = none) (h : s.fetchDecode = .error (k, op)) :
    step s = raise k op s := by
  simp [step, State.halted, hf, h]

/-- SAY ONCE WHAT A STEP CAN DO: stay halted, fault in the fetch, fault in decode, or run the decoded instruction. -/
theorem step_cases {t : State} (h : step s = .next t) :
    (s.fault.kind ≠ none ∧ t = s) ∨
    (s.fault.kind = none ∧ 4096 ≤ s.pc.toNat + 1 ∧
      t = { s with fault := { kind := some .outOfBounds, pc := s.pc, opcode := 0 } }) ∨
    (s.fault.kind = none ∧ s.pc.toNat + 1 < 4096 ∧ decodeWord s.fetchedWord = none ∧
      t = { s with fault := { kind := some .unknownOpcode, pc := s.pc, opcode := s.fetchedWord } }) ∨
    (s.fault.kind = none ∧ s.pc.toNat + 1 < 4096 ∧
      ∃ i, decodeWord s.fetchedWord = some i ∧ exec i s = .next t) := by
  by_cases hf : s.fault.kind = none
  · by_cases hp : s.pc.toNat + 1 < 4096
    · cases hd : decodeWord s.fetchedWord with
      | none =>
        rw [step_of_error s hf (State.fetchDecode_unknown s hp hd)] at h
        exact .inr (.inr (.inl ⟨hf, hp, rfl, (Host.Outcome.next.inj h).symm⟩))
      | some i =>
        rw [step_of_ok s hf (State.fetchDecode_ok s hp hd)] at h
        exact .inr (.inr (.inr ⟨hf, hp, i, rfl, h⟩))
    · rw [step_of_error s hf (State.fetchDecode_outside s (by omega))] at h
      exact .inr (.inl ⟨hf, by omega, (Host.Outcome.next.inj h).symm⟩)
  · rw [step_of_halted s hf] at h
    exact .inl ⟨hf, (Host.Outcome.next.inj h).symm⟩

end Sys2Proof.Machine
end

