-- ==== Sys2Proof/Laws/Draw.lean ====
section
/-!
SUPPORT. What a draw does, said once (spec/44_display.md R122, R123): a bit, a row, the rows, the sprite. The loops of the model
equal the map "old pixel XOR the sprite bit that lands there", and `hit` says whether a sprite bit 1 met an on pixel.
-/

namespace Sys2Proof.Machine

/-- The bit of one sprite byte that a draw from column `x0` maps to a screen column, if any. -/
def rowBit (x0 : Nat) (b : Byte) (col : Fin 64) : Bool :=
  let c := (col.val + 64 - x0 % 64) % 64
  decide (c < 8) && b.getLsbD (7 - c)

/-- The screen column of sprite column `j`. -/
def landing (x0 j : Nat) : Fin 64 := Fin.ofNat 64 (x0 + j)

theorem landing_injective {x0 j k : Nat} (hj : j < 8) (hk : k < 8) (h : landing x0 j = landing x0 k) : j = k := by
  have : (x0 + j) % 64 = (x0 + k) % 64 := congrArg Fin.val h
  omega

theorem pixelOf_togglePixel (fb : Framebuffer) (row r : Fin 32) (col c : Fin 64) :
    pixelOf (togglePixel fb row col) r c = (pixelOf fb r c ^^ (decide (r = row) && decide (c = col))) := by
  unfold pixelOf togglePixel
  by_cases h : r = row
  · subst h
    simp [Vector.get_eq_getElem, Fin.ext_iff]
  · have h' : row.val ≠ r.val := fun e => h (Fin.ext e.symm)
    simp [Vector.get_eq_getElem, h, h']

/-- One sprite bit. -/
theorem drawBit_spec (row : Fin 32) (x0 : Nat) (b : Byte) (d : Drawing) (j : Nat) :
    (∀ r c, pixelOf (drawBit row x0 b d j).1 r c =
      (pixelOf d.1 r c ^^ (decide (r = row) && (decide (landing x0 j = c) && b.getLsbD (7 - j))))) ∧
    (drawBit row x0 b d j).2 = (d.2 || (b.getLsbD (7 - j) && pixelOf d.1 row (landing x0 j))) := by
  unfold drawBit
  by_cases hb : b.getLsbD (7 - j) = true
  · simp only [hb, if_true]
    refine ⟨fun r c => ?_, by simp [landing]⟩
    rw [pixelOf_togglePixel]
    have : decide (c = Fin.ofNat 64 (x0 + j)) = decide (landing x0 j = c) := by
      simp only [landing, eq_comm]
    rw [this, Bool.and_true]
  · simp [hb]

/-- A run of sprite bits of one row, all in different columns. -/
theorem drawBits_spec (row : Fin 32) (x0 : Nat) (b : Byte) (L : List Nat) (hn : L.Nodup) (hl : ∀ j ∈ L, j < 8)
    (d : Drawing) :
    (∀ r c, pixelOf (L.foldl (drawBit row x0 b) d).1 r c =
      (pixelOf d.1 r c ^^ (decide (r = row) && L.any fun j => decide (landing x0 j = c) && b.getLsbD (7 - j)))) ∧
    (L.foldl (drawBit row x0 b) d).2 =
      (d.2 || L.any fun j => b.getLsbD (7 - j) && pixelOf d.1 row (landing x0 j)) := by
  induction L generalizing d with
  | nil => simp
  | cons j L ih =>
    obtain ⟨hj, hn⟩ := List.nodup_cons.mp hn
    obtain ⟨hp, hh⟩ := drawBit_spec row x0 b d j
    have hl' : ∀ k ∈ L, k < 8 := fun k hk => hl k (by simp [hk])
    have hne : ∀ k ∈ L, landing x0 j ≠ landing x0 k := fun k hk e => by
      rw [landing_injective (hl j (by simp)) (hl' k hk) e] at hj
      exact hj hk
    obtain ⟨ihp, ihh⟩ := ih hn hl' (drawBit row x0 b d j)
    refine ⟨fun r c => ?_, ?_⟩
    · rw [List.foldl_cons, ihp, hp, List.any_cons]
      by_cases hc : landing x0 j = c
      · have : (L.any fun k => decide (landing x0 k = c) && b.getLsbD (7 - k)) = false := by
          rw [List.any_eq_false]
          intro k hk
          simp [← hc, Ne.symm (hne k hk)]
        simp [this, hc]
      · simp [hc]
    · rw [List.foldl_cons, ihh, hh, List.any_cons, Bool.or_assoc]
      congr 2
      rw [Bool.eq_iff_iff, List.any_eq_true, List.any_eq_true]
      refine exists_congr fun k => and_congr_right fun hk => ?_
      rw [hp]
      simp [hne k hk]

theorem any_landing (x0 : Nat) (b : Byte) (col : Fin 64) :
    ((List.range 8).any fun j => decide (landing x0 j = col) && b.getLsbD (7 - j)) = rowBit x0 b col := by
  have key : ∀ j < 8, landing x0 j = col ↔ j = (col.val + 64 - x0 % 64) % 64 := by
    intro j hj
    rw [Fin.ext_iff]
    show (x0 + j) % 64 = col.val ↔ _
    omega
  rw [Bool.eq_iff_iff, List.any_eq_true]
  constructor
  · rintro ⟨j, hj, h⟩
    have hj8 : j < 8 := by simpa using hj
    simp only [Bool.and_eq_true, decide_eq_true_eq] at h
    have := (key j hj8).mp h.1
    simp [rowBit, ← this, hj8, h.2]
  · intro h
    simp only [rowBit, Bool.and_eq_true, decide_eq_true_eq] at h
    exact ⟨_, by simpa using h.1, by simp [(key _ h.1).mpr rfl, h.2]⟩

/-- One sprite row: its pixels are toggled where a bit lands, and `hit` is set when one of them was on. -/
theorem drawRow_spec (row : Fin 32) (x0 : Nat) (b : Byte) (d : Drawing) :
    (∀ r c, pixelOf (drawRow row x0 b d).1 r c = (pixelOf d.1 r c ^^ (decide (r = row) && rowBit x0 b c))) ∧
    ((drawRow row x0 b d).2 = true ↔ d.2 = true ∨ ∃ c, pixelOf d.1 row c = true ∧ rowBit x0 b c = true) := by
  obtain ⟨hp, hh⟩ := drawBits_spec row x0 b (List.range 8) (List.nodup_range) (by simp) d
  refine ⟨fun r c => ?_, ?_⟩
  · rw [drawRow, hp, any_landing]
  · rw [drawRow, hh, Bool.or_eq_true, List.any_eq_true]
    refine or_congr Iff.rfl ⟨?_, ?_⟩
    · rintro ⟨j, hj, h⟩
      simp only [Bool.and_eq_true] at h
      refine ⟨landing x0 j, h.2, ?_⟩
      rw [← any_landing, List.any_eq_true]
      exact ⟨j, hj, by simp [h.1]⟩
    · rintro ⟨c, hc, h⟩
      rw [← any_landing, List.any_eq_true] at h
      obtain ⟨j, hj, h⟩ := h
      simp only [Bool.and_eq_true, decide_eq_true_eq] at h
      exact ⟨j, hj, by simp [h.1, h.2, hc]⟩

/-- The sprite row that lands on a screen row when row 0 lands on row `y0`. -/
def rowOffset (y0 : Nat) (row : Fin 32) : Nat := (row.val + 32 - y0 % 32) % 32

theorem rowBit_zero (x0 : Nat) (c : Fin 64) : rowBit x0 0 c = false := by simp [rowBit]

@[simp] theorem rowBit_ofNat_zero (x0 : Nat) (c : Fin 64) : rowBit x0 0#8 c = false := rowBit_zero x0 c

/-- At most 32 sprite rows from row `r` on. -/
theorem drawRows_spec (x0 y0 : Nat) (bs : List Byte) (r : Nat) (d : Drawing) (hl : bs.length < 32) :
    (∀ row c, pixelOf (drawRows x0 y0 r bs d).1 row c =
      (pixelOf d.1 row c ^^ rowBit x0 (bs.getD (rowOffset (y0 + r) row) 0) c)) ∧
    ((drawRows x0 y0 r bs d).2 = true ↔ d.2 = true ∨
      ∃ row c, pixelOf d.1 row c = true ∧ rowBit x0 (bs.getD (rowOffset (y0 + r) row) 0) c = true) := by
  induction bs generalizing r d with
  | nil => simp [drawRows]
  | cons b bs ih =>
    obtain ⟨hp, hh⟩ := drawRow_spec (Fin.ofNat 32 (y0 + r)) x0 b d
    simp only [List.length_cons] at hl
    obtain ⟨ihp, ihh⟩ := ih (r + 1) (drawRow (Fin.ofNat 32 (y0 + r)) x0 b d) (by omega)
    -- a screen row is either this sprite row's, with no later one on it, or only a later one's
    have here : ∀ row, row = Fin.ofNat 32 (y0 + r) → rowOffset (y0 + r) row = 0 ∧
        bs.getD (rowOffset (y0 + (r + 1)) row) 0 = 0 := by
      intro row h
      have hv : row.val = (y0 + r) % 32 := congrArg Fin.val h
      have h1 : rowOffset (y0 + r) row = 0 := by unfold rowOffset; omega
      have h2 : rowOffset (y0 + (r + 1)) row = 31 := by unfold rowOffset; omega
      refine ⟨h1, ?_⟩
      rw [h2, List.getD_eq_getElem?_getD, List.getElem?_eq_none (by omega)]
      rfl
    have later : ∀ row, row ≠ Fin.ofNat 32 (y0 + r) →
        rowOffset (y0 + r) row = rowOffset (y0 + (r + 1)) row + 1 := by
      intro row h
      have hv : row.val ≠ (y0 + r) % 32 := fun e => h (Fin.ext e)
      unfold rowOffset; omega
    refine ⟨fun row c => ?_, ?_⟩
    · rw [drawRows, ihp, hp]
      by_cases h : row = Fin.ofNat 32 (y0 + r)
      · obtain ⟨h1, h2⟩ := here row h
        rw [h2, h1, rowBit_zero]
        simp [h]
      · rw [later row h, List.getD_cons_succ, decide_eq_false h, Bool.false_and, Bool.xor_false]
    · rw [drawRows, ihh, hh, or_assoc]
      refine or_congr Iff.rfl ⟨?_, ?_⟩
      · rintro (⟨c, hc, hb⟩ | ⟨row, c, hc, hb⟩)
        · exact ⟨_, c, hc, by rw [(here _ rfl).1]; simpa using hb⟩
        · by_cases h : row = Fin.ofNat 32 (y0 + r)
          · rw [(here row h).2, rowBit_zero] at hb; cases hb
          · rw [hp, decide_eq_false h, Bool.false_and, Bool.xor_false] at hc
            exact ⟨row, c, hc, by rw [later row h, List.getD_cons_succ]; exact hb⟩
      · rintro ⟨row, c, hc, hb⟩
        by_cases h : row = Fin.ofNat 32 (y0 + r)
        · refine .inl ⟨c, h ▸ hc, ?_⟩
          rw [(here row h).1] at hb
          simpa using hb
        · refine .inr ⟨row, c, ?_, ?_⟩
          · rw [hp, decide_eq_false h, Bool.false_and, Bool.xor_false]; exact hc
          · rw [later row h, List.getD_cons_succ] at hb; exact hb

theorem spriteBitAt_eq (x0 y0 : Nat) (bytes : List Byte) (row : Fin 32) (col : Fin 64) :
    spriteBitAt x0 y0 bytes row col = rowBit x0 (bytes.getD (rowOffset y0 row) 0) col := rfl

/-- THE DRAW: every pixel becomes its old value XOR the sprite bit that lands on it; `hit` says that one of them was on. -/
theorem drawSprite_spec (fb : Framebuffer) (x0 y0 : Nat) (bytes : List Byte) (hl : bytes.length < 32) :
    (∀ row c, pixelOf (drawSprite fb x0 y0 bytes).1 row c = (pixelOf fb row c ^^ spriteBitAt x0 y0 bytes row c)) ∧
    ((drawSprite fb x0 y0 bytes).2 = true ↔
      ∃ row c, pixelOf fb row c = true ∧ spriteBitAt x0 y0 bytes row c = true) := by
  obtain ⟨hp, hh⟩ := drawRows_spec x0 y0 bytes 0 (fb, false) hl
  simp only [Nat.add_zero] at hp hh
  exact ⟨hp, by simpa [drawSprite, spriteBitAt_eq] using hh⟩

theorem State.spriteBytes_length (s : State) (n : Height) : (s.spriteBytes n).length < 32 := by
  rw [State.spriteBytes, Memory.readAll_length]; omega

end Sys2Proof.Machine
end

