-- ==== Sys2Proof/Laws/PerInstr.lean ====
section
/-!
SUPPORT. The family EncodesToItsRow, per instruction: its word is selected by the row of the opcode map that bears its mnemonic
(spec/30_encoding.md R55, R56).
-/

namespace Sys2Proof.Laws

theorem row_family_NNN (f : BitVec 4) (nnn : Addr12) : (wordNNN f nnn).toNat / 4096 * 4096 = f.toNat * 4096 := by
  have := wordNNN_toNat f nnn; have := nnn.isLt; omega

theorem row_family_XNN (f : BitVec 4) (x : Reg) (nn : Byte) :
    (wordXNN f x nn).toNat / 4096 * 4096 = f.toNat * 4096 := by
  have := wordXNN_toNat f x nn; have := nn.isLt; omega

theorem row_family_XYN (f : BitVec 4) (x y n : Fin 16) : (wordXYN f x y n).toNat / 4096 * 4096 = f.toNat * 4096 := by
  have := wordXYN_toNat f x y n; omega

theorem row_nibble_XYN (f : BitVec 4) (x y n : Fin 16) :
    (wordXYN f x y n).toNat / 4096 * 4096 + (wordXYN f x y n).toNat % 16 = f.toNat * 4096 + n.val := by
  have := wordXYN_toNat f x y n; omega

theorem row_byte_XNN (f : BitVec 4) (x : Reg) (nn : Byte) :
    (wordXNN f x nn).toNat / 4096 * 4096 + (wordXNN f x nn).toNat % 256 = f.toNat * 4096 + nn.toNat := by
  have := wordXNN_toNat f x nn; have := nn.isLt; omega

/-- The word an instruction encodes to is selected by the row of the opcode map with its mnemonic. -/
def EncodesToItsRow.Statement (i : Instr) : Prop :=
  ∃ r ∈ opcodeMap, r.mnemonic = i.mnemonic ∧ r.selects (encode i) = true

theorem EncodesToItsRow.cls : EncodesToItsRow.Statement .cls :=
  ⟨⟨"CLS", 0xFFFF#16, 0x00E0#16⟩, by decide, rfl, (selects_whole _ _ _).mpr rfl⟩

theorem EncodesToItsRow.ret : EncodesToItsRow.Statement .ret :=
  ⟨⟨"RET", 0xFFFF#16, 0x00EE#16⟩, by decide, rfl, (selects_whole _ _ _).mpr rfl⟩

theorem EncodesToItsRow.jp (nnn : Addr12) : EncodesToItsRow.Statement (.jp nnn) := by
  refine ⟨⟨"JP", 0xF000#16, 0x1000#16⟩, by decide, rfl, (selects_family _ _ _).mpr ?_⟩
  exact row_family_NNN 0x1#4 nnn

theorem EncodesToItsRow.call (nnn : Addr12) : EncodesToItsRow.Statement (.call nnn) := by
  refine ⟨⟨"CALL", 0xF000#16, 0x2000#16⟩, by decide, rfl, (selects_family _ _ _).mpr ?_⟩
  exact row_family_NNN 0x2#4 nnn

theorem EncodesToItsRow.seVxNn (x : Reg) (nn : Byte) : EncodesToItsRow.Statement (.seVxNn x nn) := by
  refine ⟨⟨"SE_VX_NN", 0xF000#16, 0x3000#16⟩, by decide, rfl, (selects_family _ _ _).mpr ?_⟩
  exact row_family_XNN 0x3#4 x nn

theorem EncodesToItsRow.sneVxNn (x : Reg) (nn : Byte) : EncodesToItsRow.Statement (.sneVxNn x nn) := by
  refine ⟨⟨"SNE_VX_NN", 0xF000#16, 0x4000#16⟩, by decide, rfl, (selects_family _ _ _).mpr ?_⟩
  exact row_family_XNN 0x4#4 x nn

theorem EncodesToItsRow.seVxVy (x y : Reg) : EncodesToItsRow.Statement (.seVxVy x y) := by
  refine ⟨⟨"SE_VX_VY", 0xF00F#16, 0x5000#16⟩, by decide, rfl, (selects_nibble _ _ _).mpr ?_⟩
  exact row_nibble_XYN 0x5#4 x y 0x0

theorem EncodesToItsRow.ldVxNn (x : Reg) (nn : Byte) : EncodesToItsRow.Statement (.ldVxNn x nn) := by
  refine ⟨⟨"LD_VX_NN", 0xF000#16, 0x6000#16⟩, by decide, rfl, (selects_family _ _ _).mpr ?_⟩
  exact row_family_XNN 0x6#4 x nn

theorem EncodesToItsRow.addVxNn (x : Reg) (nn : Byte) : EncodesToItsRow.Statement (.addVxNn x nn) := by
  refine ⟨⟨"ADD_VX_NN", 0xF000#16, 0x7000#16⟩, by decide, rfl, (selects_family _ _ _).mpr ?_⟩
  exact row_family_XNN 0x7#4 x nn

theorem EncodesToItsRow.ldVxVy (x y : Reg) : EncodesToItsRow.Statement (.ldVxVy x y) := by
  refine ⟨⟨"LD_VX_VY", 0xF00F#16, 0x8000#16⟩, by decide, rfl, (selects_nibble _ _ _).mpr ?_⟩
  exact row_nibble_XYN 0x8#4 x y 0x0

theorem EncodesToItsRow.or (x y : Reg) : EncodesToItsRow.Statement (.or x y) := by
  refine ⟨⟨"OR", 0xF00F#16, 0x8001#16⟩, by decide, rfl, (selects_nibble _ _ _).mpr ?_⟩
  exact row_nibble_XYN 0x8#4 x y 0x1

theorem EncodesToItsRow.and (x y : Reg) : EncodesToItsRow.Statement (.and x y) := by
  refine ⟨⟨"AND", 0xF00F#16, 0x8002#16⟩, by decide, rfl, (selects_nibble _ _ _).mpr ?_⟩
  exact row_nibble_XYN 0x8#4 x y 0x2

theorem EncodesToItsRow.xor (x y : Reg) : EncodesToItsRow.Statement (.xor x y) := by
  refine ⟨⟨"XOR", 0xF00F#16, 0x8003#16⟩, by decide, rfl, (selects_nibble _ _ _).mpr ?_⟩
  exact row_nibble_XYN 0x8#4 x y 0x3

theorem EncodesToItsRow.addVxVy (x y : Reg) : EncodesToItsRow.Statement (.addVxVy x y) := by
  refine ⟨⟨"ADD_VX_VY", 0xF00F#16, 0x8004#16⟩, by decide, rfl, (selects_nibble _ _ _).mpr ?_⟩
  exact row_nibble_XYN 0x8#4 x y 0x4

theorem EncodesToItsRow.sub (x y : Reg) : EncodesToItsRow.Statement (.sub x y) := by
  refine ⟨⟨"SUB", 0xF00F#16, 0x8005#16⟩, by decide, rfl, (selects_nibble _ _ _).mpr ?_⟩
  exact row_nibble_XYN 0x8#4 x y 0x5

theorem EncodesToItsRow.shr (x y : Reg) : EncodesToItsRow.Statement (.shr x y) := by
  refine ⟨⟨"SHR", 0xF00F#16, 0x8006#16⟩, by decide, rfl, (selects_nibble _ _ _).mpr ?_⟩
  exact row_nibble_XYN 0x8#4 x y 0x6

theorem EncodesToItsRow.subn (x y : Reg) : EncodesToItsRow.Statement (.subn x y) := by
  refine ⟨⟨"SUBN", 0xF00F#16, 0x8007#16⟩, by decide, rfl, (selects_nibble _ _ _).mpr ?_⟩
  exact row_nibble_XYN 0x8#4 x y 0x7

theorem EncodesToItsRow.shl (x y : Reg) : EncodesToItsRow.Statement (.shl x y) := by
  refine ⟨⟨"SHL", 0xF00F#16, 0x800E#16⟩, by decide, rfl, (selects_nibble _ _ _).mpr ?_⟩
  exact row_nibble_XYN 0x8#4 x y 0xE

theorem EncodesToItsRow.sneVxVy (x y : Reg) : EncodesToItsRow.Statement (.sneVxVy x y) := by
  refine ⟨⟨"SNE_VX_VY", 0xF00F#16, 0x9000#16⟩, by decide, rfl, (selects_nibble _ _ _).mpr ?_⟩
  exact row_nibble_XYN 0x9#4 x y 0x0

theorem EncodesToItsRow.ldINnn (nnn : Addr12) : EncodesToItsRow.Statement (.ldINnn nnn) := by
  refine ⟨⟨"LD_I_NNN", 0xF000#16, 0xA000#16⟩, by decide, rfl, (selects_family _ _ _).mpr ?_⟩
  exact row_family_NNN 0xA#4 nnn

theorem EncodesToItsRow.jpV0 (nnn : Addr12) : EncodesToItsRow.Statement (.jpV0 nnn) := by
  refine ⟨⟨"JP_V0", 0xF000#16, 0xB000#16⟩, by decide, rfl, (selects_family _ _ _).mpr ?_⟩
  exact row_family_NNN 0xB#4 nnn

theorem EncodesToItsRow.rnd (x : Reg) (nn : Byte) : EncodesToItsRow.Statement (.rnd x nn) := by
  refine ⟨⟨"RND", 0xF000#16, 0xC000#16⟩, by decide, rfl, (selects_family _ _ _).mpr ?_⟩
  exact row_family_XNN 0xC#4 x nn

theorem EncodesToItsRow.drw (x y : Reg) (n : Height) : EncodesToItsRow.Statement (.drw x y n) := by
  refine ⟨⟨"DRW", 0xF000#16, 0xD000#16⟩, by decide, rfl, (selects_family _ _ _).mpr ?_⟩
  exact row_family_XYN 0xD#4 x y n

theorem EncodesToItsRow.skp (x : Reg) : EncodesToItsRow.Statement (.skp x) := by
  refine ⟨⟨"SKP", 0xF0FF#16, 0xE09E#16⟩, by decide, rfl, (selects_byte _ _ _).mpr ?_⟩
  exact row_byte_XNN 0xE#4 x 0x9E#8

theorem EncodesToItsRow.sknp (x : Reg) : EncodesToItsRow.Statement (.sknp x) := by
  refine ⟨⟨"SKNP", 0xF0FF#16, 0xE0A1#16⟩, by decide, rfl, (selects_byte _ _ _).mpr ?_⟩
  exact row_byte_XNN 0xE#4 x 0xA1#8

theorem EncodesToItsRow.ldVxDt (x : Reg) : EncodesToItsRow.Statement (.ldVxDt x) := by
  refine ⟨⟨"LD_VX_DT", 0xF0FF#16, 0xF007#16⟩, by decide, rfl, (selects_byte _ _ _).mpr ?_⟩
  exact row_byte_XNN 0xF#4 x 0x07#8

theorem EncodesToItsRow.ldVxK (x : Reg) : EncodesToItsRow.Statement (.ldVxK x) := by
  refine ⟨⟨"LD_VX_K", 0xF0FF#16, 0xF00A#16⟩, by decide, rfl, (selects_byte _ _ _).mpr ?_⟩
  exact row_byte_XNN 0xF#4 x 0x0A#8

theorem EncodesToItsRow.ldDtVx (x : Reg) : EncodesToItsRow.Statement (.ldDtVx x) := by
  refine ⟨⟨"LD_DT_VX", 0xF0FF#16, 0xF015#16⟩, by decide, rfl, (selects_byte _ _ _).mpr ?_⟩
  exact row_byte_XNN 0xF#4 x 0x15#8

theorem EncodesToItsRow.ldStVx (x : Reg) : EncodesToItsRow.Statement (.ldStVx x) := by
  refine ⟨⟨"LD_ST_VX", 0xF0FF#16, 0xF018#16⟩, by decide, rfl, (selects_byte _ _ _).mpr ?_⟩
  exact row_byte_XNN 0xF#4 x 0x18#8

theorem EncodesToItsRow.addIVx (x : Reg) : EncodesToItsRow.Statement (.addIVx x) := by
  refine ⟨⟨"ADD_I_VX", 0xF0FF#16, 0xF01E#16⟩, by decide, rfl, (selects_byte _ _ _).mpr ?_⟩
  exact row_byte_XNN 0xF#4 x 0x1E#8

theorem EncodesToItsRow.ldFVx (x : Reg) : EncodesToItsRow.Statement (.ldFVx x) := by
  refine ⟨⟨"LD_F_VX", 0xF0FF#16, 0xF029#16⟩, by decide, rfl, (selects_byte _ _ _).mpr ?_⟩
  exact row_byte_XNN 0xF#4 x 0x29#8

theorem EncodesToItsRow.ldBVx (x : Reg) : EncodesToItsRow.Statement (.ldBVx x) := by
  refine ⟨⟨"LD_B_VX", 0xF0FF#16, 0xF033#16⟩, by decide, rfl, (selects_byte _ _ _).mpr ?_⟩
  exact row_byte_XNN 0xF#4 x 0x33#8

theorem EncodesToItsRow.ldMemVx (x : Reg) : EncodesToItsRow.Statement (.ldMemVx x) := by
  refine ⟨⟨"LD_MEM_VX", 0xF0FF#16, 0xF055#16⟩, by decide, rfl, (selects_byte _ _ _).mpr ?_⟩
  exact row_byte_XNN 0xF#4 x 0x55#8

theorem EncodesToItsRow.ldVxMem (x : Reg) : EncodesToItsRow.Statement (.ldVxMem x) := by
  refine ⟨⟨"LD_VX_MEM", 0xF0FF#16, 0xF065#16⟩, by decide, rfl, (selects_byte _ _ _).mpr ?_⟩
  exact row_byte_XNN 0xF#4 x 0x65#8

end Sys2Proof.Laws
end

