-- ==== Sys2Proof/Tests/Slice0.lean ====
section
/-!
SUPPORT. Small named tests. Expected results come from spec/30_encoding.md and spec/95_test_vectors.md (the id of a vector
stands in the comment of its test), never from the model. Then a witness for the hypotheses of each statement that has any.
-/

namespace Sys2Proof.Tests

open Sys2Proof.Machine

/-! ### Helpers -/

/-- The reset state with some registers and I set. -/
def start (regs : List (Reg × Byte)) (i : Word) : State :=
  { regs.foldl (fun s r => s.setReg r.1 r.2) State.reset with i := i }

/-- Keys pressed by number. -/
def withKeys (ks : List Reg) (s : State) : State := { s with key := Vector.ofFn fun k => decide (k ∈ ks) }

/-- One pixel toggled. -/
def withPixel (row : Fin 32) (col : Fin 64) (s : State) : State := { s with fb := togglePixel s.fb row col }

/-- The state after one step that runs the word `w` placed at PC. -/
def ran (w : Nat) (s : State) : Option State :=
  match step (s.withFetchWord 16 w) with
  | .next t => some t
  | .fault _ => none
  | .refused _ => none

/-- What a test looks at after running `w`. -/
def see {α : Type} (w : Nat) (s : State) (f : State → α) : Option α := (ran w s).map f

/-- A machine's answer is the next state `t`. -/
def answers (r : Result) (t : State) : Bool :=
  match r with
  | .next u => u == t
  | .fault _ => false
  | .refused _ => false

theorem next_of {r : Result} {t : State} (h : answers r t = true) : r = .next t := by
  cases r <;> simp_all [answers]

/-! ### Well-formedness: what the checks refuse -/

/-- One word of each class of illegal words (R57). -/
theorem test_illegal_words_refused :
    ([0x0000#16, 0x5121#16, 0x8128#16, 0x812F#16, 0x912F#16, 0xE59F#16, 0xF3FF#16].map legalWord) =
      [false, false, false, false, false, false, false] := by decide

/-- The decoder refuses them too, by name (R57, vector list 2.6). -/
theorem test_illegal_words_do_not_decode :
    ([0x00E1#16, 0x5121#16, 0x8128#16, 0x912F#16, 0xE000#16, 0xF375#16].map decodeWord) =
      [none, none, none, none, none, none] := by decide

/-- A single byte is no instruction (R50). -/
theorem test_truncated_refused : decode [0x60#8] = .error .truncated := by rfl

/-- S9: a ROM of 3585 bytes is too large, one of 3584 is not. -/
theorem test_rom_size : romFits (List.replicate 3585 0) = false ∧ romFits (List.replicate 3584 0) = true := by
  simp only [romFits, List.length_replicate]; decide

/-- The opcode map has 34 rows (R56). -/
theorem test_opcode_map_rows : opcodeMap.length = 34 := by decide

/-! ### Decoding: each constructor's word, written out bit by bit from R52 and R56 -/

/-- Fixed words. -/
theorem test_decode_family0 : decodeWord 0b0000000011100000#16 = some .cls ∧ decodeWord 0b0000000011101110#16 = some .ret := by decide

theorem test_decode_jp_call :
    decodeWord 0b0001101010111100#16 = some (.jp 0xABC) ∧
      decodeWord 0b0010101010111100#16 = some (.call 0xABC) := by decide

theorem test_decode_immediate_skips :
    decodeWord 0b0011010110010110#16 = some (.seVxNn 5 0x96) ∧
      decodeWord 0b0100010110010110#16 = some (.sneVxNn 5 0x96) := by decide

theorem test_decode_register_skips :
    decodeWord 0b0101010110010000#16 = some (.seVxVy 5 9) ∧
      decodeWord 0b1001010110100000#16 = some (.sneVxVy 5 10) := by decide

theorem test_decode_immediates :
    decodeWord 0b0110111000010010#16 = some (.ldVxNn 14 0x12) ∧
      decodeWord 0b0111111000010010#16 = some (.addVxNn 14 0x12) := by decide

theorem test_decode_moves_and_logic :
    decodeWord 0b1000000100100000#16 = some (.ldVxVy 1 2) ∧
      decodeWord 0b1000000100100001#16 = some (.or 1 2) ∧
      decodeWord 0b1000000100100010#16 = some (.and 1 2) ∧
      decodeWord 0b1000000100100011#16 = some (.xor 1 2) := by decide

theorem test_decode_flag_arithmetic :
    decodeWord 0b1000000100100100#16 = some (.addVxVy 1 2) ∧
      decodeWord 0b1000000100100101#16 = some (.sub 1 2) ∧
      decodeWord 0b1000000100100110#16 = some (.shr 1 2) ∧
      decodeWord 0b1000000100100111#16 = some (.subn 1 2) ∧
      decodeWord 0b1000000100101110#16 = some (.shl 1 2) := by decide

theorem test_decode_index_and_jump_v0 :
    decodeWord 0b1010001000110000#16 = some (.ldINnn 0x230) ∧
      decodeWord 0b1011111111111111#16 = some (.jpV0 0xFFF) := by decide

theorem test_decode_random_and_draw :
    decodeWord 0b1100000100001111#16 = some (.rnd 1 0x0F) ∧
      decodeWord 0b1101001000110101#16 = some (.drw 2 3 5) := by decide

theorem test_decode_key_skips :
    decodeWord 0b1110010110011110#16 = some (.skp 5) ∧
      decodeWord 0b1110010110100001#16 = some (.sknp 5) := by decide

theorem test_decode_timers_and_wait :
    decodeWord 0b1111001100000111#16 = some (.ldVxDt 3) ∧
      decodeWord 0b1111001100001010#16 = some (.ldVxK 3) ∧
      decodeWord 0b1111001000010101#16 = some (.ldDtVx 2) ∧
      decodeWord 0b1111001000011000#16 = some (.ldStVx 2) := by decide

theorem test_decode_index_and_memory :
    decodeWord 0b1111001000011110#16 = some (.addIVx 2) ∧
      decodeWord 0b1111010000101001#16 = some (.ldFVx 4) ∧
      decodeWord 0b1111001100110011#16 = some (.ldBVx 3) ∧
      decodeWord 0b1111001001010101#16 = some (.ldMemVx 2) ∧
      decodeWord 0b1111001001100101#16 = some (.ldVxMem 2) := by decide

/-- Bytes in address order: the high byte first, and the rest handed back (R32, R50). -/
theorem test_decode_bytes : decode [0xA2#8, 0x30#8, 0xF0#8] = .ok (.ldINnn 0x230, [0xF0#8]) := by rfl

/-- The host's numbering of a table word (R50). -/
theorem test_table_word : decodeTableWord 16 0xD235 = some (.drw 2 3 5) ∧ decodeTableWord 16 0x0000 = none := by decide

/-! ### One step: control flow (95_test_vectors.md 2.1) -/

/-- CF1. -/
theorem test_ret_pops :
    see 0x00EE { State.reset with pc := 0x300, sp := 1, stack := Vector.replicate 16 0x202 }
      (fun t => (t.pc, t.sp.val, t.fault.kind)) =
      some (0x202, 0, none) := by decide

/-- CF2. -/
theorem test_ret_underflows :
    see 0x00EE { State.reset with pc := 0x300 }
      (fun t => (t.pc, t.sp.val, t.fault)) =
      some (0x300, 0, ⟨some .stackUnderflow, 0x300, 0x00EE⟩) := by decide

/-- CF4. -/
theorem test_jp :
    see 0x1234 State.reset
      (fun t => t.pc) =
      some 0x234 := by decide

/-- CF7: an odd target is legal. -/
theorem test_jp_odd :
    see 0x1201 State.reset
      (fun t => (t.pc, t.fault.kind)) =
      some (0x201, none) := by decide

/-- CF11. -/
theorem test_call_at_top_of_memory :
    see 0x2ABC { State.reset with pc := 0xFFE }
      (fun t => (t.pc, t.sp.val, t.stack.get 0)) =
      some (0xABC, 1, 0x1000) := by decide

/-- CF10. -/
theorem test_call_overflows :
    see 0x2300 { State.reset with sp := 16, stack := Vector.replicate 16 0x222 }
      (fun t => (t.pc, t.sp.val, t.stack.get 15, t.fault)) =
      some (0x200, 16, 0x222, ⟨some .stackOverflow, 0x200, 0x2300⟩) := by decide

/-- CF14. -/
theorem test_se_nn_taken :
    see 0x3F01 (start [(15, 0x01)] 0)
      (fun t => t.pc) =
      some 0x204 := by decide

/-- CF13. -/
theorem test_se_nn_not_taken :
    see 0x332B (start [(3, 0x2A)] 0)
      (fun t => t.pc) =
      some 0x202 := by decide

/-- CF15. -/
theorem test_sne_nn_not_taken :
    see 0x432A (start [(3, 0x2A)] 0)
      (fun t => t.pc) =
      some 0x202 := by decide

/-- CF16. -/
theorem test_sne_nn_taken :
    see 0x432B (start [(3, 0x2A)] 0)
      (fun t => t.pc) =
      some 0x204 := by decide

/-- CF17. -/
theorem test_se_vy_taken :
    see 0x5120 (start [(1, 0x07), (2, 0x07)] 0)
      (fun t => t.pc) =
      some 0x204 := by decide

/-- CF18. -/
theorem test_se_vy_not_taken :
    see 0x5120 (start [(1, 0x07), (2, 0x08)] 0)
      (fun t => t.pc) =
      some 0x202 := by decide

/-- CF21. -/
theorem test_sne_vy_taken :
    see 0x9120 (start [(1, 0x07), (2, 0x08)] 0)
      (fun t => t.pc) =
      some 0x204 := by decide

/-- CF23. -/
theorem test_sne_vy_not_taken :
    see 0x9330 (start [(3, 0x99)] 0)
      (fun t => t.pc) =
      some 0x202 := by decide

/-- CF25. -/
theorem test_jp_v0 :
    see 0xB300 (start [(0, 0x04)] 0)
      (fun t => t.pc) =
      some 0x304 := by decide

/-- CF26. -/
theorem test_jp_v0_is_not_reduced :
    see 0xBFFF (start [(0, 0xFF)] 0)
      (fun t => t.pc) =
      some 0x10FE := by decide

/-! ### One step: immediate, ALU, random (2.2) -/

/-- AL2. -/
theorem test_ld_nn :
    see 0x6FAB State.reset
      (fun t => (t.reg 15, t.pc)) =
      some (0xAB, 0x202) := by decide

/-- CF30. -/
theorem test_ld_nn_last_fetchable :
    see 0x6000 { State.reset with pc := 0xFFE }
      (fun t => (t.pc, t.fault.kind)) =
      some (0x1000, none) := by decide

/-- AL4. -/
theorem test_add_nn_no_flag :
    see 0x7101 (start [(1, 0xFF), (15, 0x55)] 0)
      (fun t => (t.reg 1, t.reg 15, t.pc)) =
      some (0x00, 0x55, 0x202) := by decide

/-- AL7. -/
theorem test_ld_vy :
    see 0x8120 (start [(2, 0x9C)] 0)
      (fun t => (t.reg 1, t.reg 2, t.pc)) =
      some (0x9C, 0x9C, 0x202) := by decide

/-- AL10. -/
theorem test_or :
    see 0x8121 (start [(1, 0x0F), (2, 0xF0), (15, 0x55)] 0)
      (fun t => (t.reg 1, t.reg 15)) =
      some (0xFF, 0x55) := by decide

/-- AL11. -/
theorem test_and :
    see 0x8122 (start [(1, 0x3C), (2, 0x0F), (15, 0x55)] 0)
      (fun t => (t.reg 1, t.reg 15)) =
      some (0x0C, 0x55) := by decide

/-- AL12. -/
theorem test_xor :
    see 0x8123 (start [(1, 0xFF), (2, 0x0F), (15, 0x55)] 0)
      (fun t => (t.reg 1, t.reg 15)) =
      some (0xF0, 0x55) := by decide

/-- AL14. -/
theorem test_add_carry :
    see 0x8124 (start [(1, 0xC8), (2, 0x64)] 0)
      (fun t => (t.reg 1, t.reg 15)) =
      some (0x2C, 0x01) := by decide

/-- AL22. -/
theorem test_add_to_vf :
    see 0x8F14 (start [(15, 0x10), (1, 0x20)] 0)
      (fun t => (t.reg 15, t.reg 1)) =
      some (0x00, 0x20) := by decide

/-- AL25. -/
theorem test_sub_borrow :
    see 0x8125 (start [(1, 0x03), (2, 0x0A), (15, 0x01)] 0)
      (fun t => (t.reg 1, t.reg 15)) =
      some (0xF9, 0x00) := by decide

/-- AL26. -/
theorem test_sub_equal :
    see 0x8125 (start [(1, 0x07), (2, 0x07), (15, 0x01)] 0)
      (fun t => (t.reg 1, t.reg 15)) =
      some (0x00, 0x00) := by decide

/-- AL35. -/
theorem test_shr_ignores_y :
    see 0x8126 (start [(1, 0x04), (2, 0xFF), (15, 0x01)] 0)
      (fun t => (t.reg 1, t.reg 15)) =
      some (0x02, 0x00) := by decide

/-- AL37. -/
theorem test_shr_vf :
    see 0x8F06 (start [(15, 0x02)] 0)
      (fun t => (t.reg 15, t.pc)) =
      some (0x00, 0x202) := by decide

/-- AL38. -/
theorem test_subn :
    see 0x8127 (start [(1, 0x03), (2, 0x0A)] 0)
      (fun t => (t.reg 1, t.reg 15)) =
      some (0x07, 0x01) := by decide

/-- AL39. -/
theorem test_subn_borrow :
    see 0x8127 (start [(1, 0x0A), (2, 0x03), (15, 0x01)] 0)
      (fun t => (t.reg 1, t.reg 15)) =
      some (0xF9, 0x00) := by decide

/-- AL43. -/
theorem test_shl :
    see 0x810E (start [(1, 0x81)] 0)
      (fun t => (t.reg 1, t.reg 15)) =
      some (0x02, 0x01) := by decide

/-- AL49. -/
theorem test_shl_vf :
    see 0x8F0E (start [(15, 0x41)] 0)
      (fun t => (t.reg 15, t.pc)) =
      some (0x00, 0x202) := by decide

/-- AL52: the draw is handed in from outside. -/
theorem test_rnd :
    (match stepWithDraw 0xB7 (State.reset.withFetchWord 16 0xC10F) with
      | .next t => some (t.reg 1, t.reg 15, t.pc)
      | _ => none) = some (0x07, 0x00, 0x202) := by decide

/-- CF30 and R103: whatever the draw, the step goes on to the next instruction with no fault. -/
theorem test_rnd_completes : see 0xCF81 State.reset (fun t => (t.pc, t.fault.kind, t.reg 1)) = some (0x202, none, 0) := by decide

/-! ### One step: index and memory (2.3) -/

/-- IX2. -/
theorem test_ld_i :
    see 0xAFFF (start [] 0xFFFF)
      (fun t => (t.i, t.pc)) =
      some (0x0FFF, 0x202) := by decide

/-- IX6. -/
theorem test_add_i_no_flag :
    see 0xF21E (start [(2, 0x01), (15, 0x55)] 0x0FFF)
      (fun t => (t.i, t.reg 15, t.pc)) =
      some (0x1000, 0x55, 0x202) := by decide

/-- IX8. -/
theorem test_add_i_wraps :
    see 0xF21E (start [(2, 0xFF)] 0xFF80)
      (fun t => t.i) =
      some 0x007F := by decide

/-- IX9. -/
theorem test_ld_f :
    see 0xF429 (start [(4, 0x0A)] 0x999)
      (fun t => (t.i, t.pc)) =
      some (0x0032, 0x202) := by decide

/-- IX13. -/
theorem test_ld_f_low_nibble :
    see 0xF429 (start [(4, 0xFF)] 0)
      (fun t => t.i) =
      some 0x004B := by decide

/-- IX19. -/
theorem test_bcd :
    see 0xF333 (start [(3, 0x7B)] 0xFFD)
      (fun t => (t.byteAt 0xFFD, t.byteAt 0xFFE, t.byteAt 0xFFF, t.i, t.pc)) =
      some (0x01, 0x02, 0x03, 0xFFD, 0x202) := by decide

/-- IX20. -/
theorem test_bcd_outside :
    see 0xF333 (start [(3, 0x7B)] 0xFFE)
      (fun t => (t.pc, t.fault, t.byteAt 0xFFE, t.byteAt 0xFFF)) =
      some (0x200, ⟨some .outOfBounds, 0x200, 0xF333⟩, 0, 0) := by decide

/-- IX22. -/
theorem test_store_range :
    see 0xF255 (start [(0, 0x11), (1, 0x22), (2, 0x33), (3, 0x44)] 0x400)
      (fun t => (t.byteAt 0x400, t.byteAt 0x401, t.byteAt 0x402, t.byteAt 0x403, t.i)) =
      some (0x11, 0x22, 0x33, 0x00, 0x400) := by decide

/-- IX25. -/
theorem test_store_range_outside :
    see 0xF155 (start [(0, 0x11), (1, 0x22)] 0xFFF)
      (fun t => (t.pc, t.fault, t.byteAt 0xFFF)) =
      some (0x200, ⟨some .outOfBounds, 0x200, 0xF155⟩, 0) := by decide

/-- IX29. -/
theorem test_load_range :
    see 0xF265 ((start [(3, 0x77)] 0x400).storeBytes 0x400 [0x11, 0x22, 0x33, 0x44])
      (fun t => (t.reg 0, t.reg 1, t.reg 2, t.reg 3, t.i)) =
      some (0x11, 0x22, 0x33, 0x77, 0x400) := by decide

/-- IX32. -/
theorem test_load_range_outside :
    see 0xF165 ((start [(0, 0x09), (1, 0x09)] 0xFFF).storeBytes 0xFFF [0x5A])
      (fun t => (t.pc, t.fault, t.reg 0)) =
      some (0x200, ⟨some .outOfBounds, 0x200, 0xF165⟩, 0x09) := by decide

/-! ### One step: display (2.4) -/

/-- DR0, DR0b. -/
theorem test_cls :
    see 0x00E0 (withPixel 0 0 (withPixel 31 63 (start [(15, 0x01)] 0)))
      (fun t => (t.fb == Vector.replicate 32 0, t.reg 15, t.pc)) =
      some (true, 0x01, 0x202) := by decide

/-- DR3. -/
theorem test_drw_collision :
    see 0xD011 (withPixel 0 3 (withPixel 0 4 ((start [] 0x300).storeBytes 0x300 [0xF0])))
      (fun t => ([0, 1, 2, 3, 4, 5].map (t.pixel 0), t.reg 15, t.pc)) =
      some ([true, true, true, false, true, false], 0x01, 0x202) := by decide

/-- DR5. -/
theorem test_drw_wraps_rows :
    see 0xD013 ((start [(0, 62), (1, 30)] 0x300).storeBytes 0x300 [0xC0, 0xC0, 0xC0])
      (fun t => ([30, 31, 0, 1].map (fun r => t.pixel r 63), [30, 31, 0, 1].map (fun r => t.pixel r 0), t.reg 15)) =
      some ([true, true, true, false], [false, false, false, false], 0x00) := by decide

/-! ### One step: keypad and timers (2.5) -/

/-- KT3. -/
theorem test_skp_low_nibble :
    see 0xE59E (withKeys [10] (start [(5, 0x1A)] 0))
      (fun t => t.pc) =
      some 0x204 := by decide

/-- KT2. -/
theorem test_skp_other_key :
    see 0xE59E (withKeys [11] (start [(5, 0x0A)] 0))
      (fun t => t.pc) =
      some 0x202 := by decide

/-- KT5. -/
theorem test_sknp_pressed :
    see 0xE5A1 (withKeys [10] (start [(5, 0x0A)] 0))
      (fun t => t.pc) =
      some 0x202 := by decide

/-- KT6. -/
theorem test_sknp_not_pressed :
    see 0xE5A1 (start [(5, 0x0A)] 0)
      (fun t => t.pc) =
      some 0x204 := by decide

/-- KT10. -/
theorem test_ld_vx_dt :
    see 0xF307 { start [] 0 with dt := 0x3C }
      (fun t => (t.reg 3, t.dt, t.pc)) =
      some (0x3C, 0x3C, 0x202) := by decide

/-- KT12. -/
theorem test_ld_vx_k_waits :
    see 0xF30A (start [(3, 0x55)] 0)
      (fun t => (t.reg 3, t.pc, t.fault.kind)) =
      some (0x55, 0x200, none) := by decide

/-- KT13. -/
theorem test_ld_vx_k_least :
    see 0xF30A (withKeys [9, 7] (start [(3, 0x55)] 0))
      (fun t => (t.reg 3, t.pc)) =
      some (0x07, 0x202) := by decide

/-- KT18. -/
theorem test_ld_dt :
    see 0xF215 { start [] 0 with dt := 0x09 }
      (fun t => (t.dt, t.pc)) =
      some (0x00, 0x202) := by decide

/-- KT20. -/
theorem test_ld_st :
    see 0xF218 { start [(2, 0xFF)] 0 with dt := 0x03 }
      (fun t => (t.st, t.dt, t.pc)) =
      some (0xFF, 0x03, 0x202) := by decide

/-! ### Fetch, decode, reset, the outside agents (2.1, 2.6, 2.7) -/

/-- R173: the first step after reset with no program. -/
theorem test_step_from_reset :
    step State.reset = .next { State.reset with fault := ⟨some .unknownOpcode, 0x200, 0x0000⟩ } := next_of (by decide)

/-- CF31: PC = 0x0FFF cannot be fetched from. -/
theorem test_fetch_outside :
    step { State.reset with pc := 0xFFF } =
      .next { State.reset with pc := 0xFFF, fault := ⟨some .outOfBounds, 0xFFF, 0⟩ } := next_of (by decide)

/-- HO1: the font after reset. -/
theorem test_reset_memory :
    Memory.readAll State.reset.mem 0 5 = [0xF0, 0x90, 0x90, 0x90, 0xF0] ∧ State.reset.byteAt 0x50 = 0 := by decide

/-- HO5, HO6: the floor of the timers. -/
theorem test_tick : ((tick { State.reset with dt := 2, st := 1 }).dt, (tick { State.reset with dt := 2 }).st) = (1, 0) := by decide

/-- HO7: a halted core does nothing. -/
theorem test_halted :
    step { State.reset with fault := ⟨some .outOfBounds, 1, 2⟩ } =
      .next { State.reset with fault := ⟨some .outOfBounds, 1, 2⟩ } := next_of (by decide)

/-- HO9: an accepted load clears FAULT and places the ROM. -/
theorem test_load :
    ((load [0x12, 0x00] { State.reset with fault := ⟨some .outOfBounds, 1, 2⟩, dt := 5 }).1 =
      { State.reset with mem := [(0x200, 0x12)] }) ∧
      (load [0x12, 0x00] State.reset).2 = .ok := by decide

/-- HO11: the flat index 66 of the pixel at row 1, column 2. -/
theorem test_framebuffer :
    (getFramebuffer (withPixel 1 2 State.reset)).get 66 = true ∧
      (getFramebuffer (withPixel 1 2 State.reset)).get 65 = false := by
  constructor <;> simp only [getFramebuffer, Vector.get_eq_getElem, Vector.getElem_ofFn] <;> decide

/-- R147: `keys` comes before `tick` and `step`, and a step samples `rnd_in`. -/
theorem test_clock :
    (match clockState ⟨false, false, true, true, true, 0x0002, 0, []⟩ { State.reset with dt := 5 } with
      | .next t => some (t.pressed 1, t.pressed 0, t.dt, t.pc)
      | _ => none) = some (true, false, 5, 0x200) ∧
    (match clockState ⟨false, false, true, false, false, 0, 0x5A, []⟩ (State.reset.withFetchWord 16 0xC1FF) with
      | .next t => some (t.reg 1)
      | _ => none) = some 0x5A := by decide

/-- The suggested default of END_OF_RUN (decision D22): a jump to itself ends a run, and so does the step that faults. -/
theorem test_end_of_run :
    defaultEndOfRun (State.reset.withFetchWord 16 0x1200) (State.reset.withFetchWord 16 0x1200) = true ∧
      defaultEndOfRun (State.reset.withFetchWord 16 0x1202) (State.reset.withFetchWord 16 0x1202) = false ∧
      defaultEndOfRun State.reset { State.reset with fault := ⟨some .unknownOpcode, 0x200, 0⟩ } = true := by decide

/-! ### Witnesses: states and operands that meet the hypotheses of each statement, a boundary for each clause -/

theorem witness_ResetStateIsTheTable :
    (79 < 80) ∧ (80 ≤ 80 ∧ 80 < 4096) ∧ (80 ≤ 4095 ∧ 4095 < 4096) := by decide

theorem witness_LoadResetsThenCopiesOrRefuses :
    (List.replicate 3584 (0 : Byte)).length ≤ 3584 ∧ 3583 < (List.replicate 3584 (0 : Byte)).length ∧
      3584 < (List.replicate 3585 (0 : Byte)).length ∧ ¬(0x200 ≤ 0xFFF ∧
      0xFFF < 0x200 + ([] : List Byte).length) := by
  simp only [List.length_replicate]; decide

/-- A halted core. -/
def haltedCore : State := { State.reset with fault := ⟨some .unknownOpcode, 0x200, 0⟩ }

/-- A period whose only request is a load. -/
def loadPeriod (rom : List Byte) : Inputs := ⟨false, true, false, false, false, 0, 0, rom⟩

/-- A load of a ROM of 3585 bytes is refused, so the period ends in the state it began in. -/
theorem witness_SignalLevelReading :
    clockState (loadPeriod (List.replicate 3585 0)) haltedCore = .next haltedCore ∧
      (loadPeriod (List.replicate 3585 0)).resetReq = false ∧ (loadPeriod (List.replicate 3585 0)).loadReq = true ∧
      3584 < (loadPeriod (List.replicate 3585 0)).rom.length := by
  have h : 3584 < (List.replicate 3585 (0 : Byte)).length := by simp only [List.length_replicate]; decide
  have fits : romFits (List.replicate 3585 0) = false := test_rom_size.1
  refine ⟨?_, rfl, rfl, h⟩
  show Host.Outcome.next (load (List.replicate 3585 0) haltedCore).1 = .next haltedCore
  rw [load, fits]
  rfl

theorem witness_EncodeOfDecode :
    decodeWord 0x6005#16 = some (.ldVxNn 0 0x05) := by decide

theorem witness_DecoderAgreesWithOpcodeMap :
    decodeWord 0x00EE#16 = some .ret ∧ (⟨"RET", 0xFFFF#16, 0x00EE#16⟩ : OpcodeRow) ∈ opcodeMap ∧
      (⟨"RET", 0xFFFF#16, 0x00EE#16⟩ : OpcodeRow).selects 0x00EE#16 = true := by decide

/-- A state whose PC is the last fetchable address, with the word `6005` there. -/
def lastFetch : State := { State.reset with pc := 0xFFE, mem := [(0xFFE, 0x60), (0xFFF, 0x05)] }

/-- A state whose PC is the first address that cannot be fetched from. -/
def pastFetch : State := { State.reset with pc := 0xFFF }

theorem witness_StepCycle :
    haltedCore.fault.kind ≠ none ∧ (pastFetch.fault.kind = none ∧ 4096 ≤ pastFetch.pc.toNat + 1) ∧
      (lastFetch.fault.kind = none ∧ ¬ 4096 ≤ lastFetch.pc.toNat + 1 ∧
      decodeWord lastFetch.fetchedWord ≠ none) ∧
      decodeWord State.reset.fetchedWord = none := by decide

theorem witness_StepRunsTheDecodedInstruction :
    lastFetch.fault.kind = none ∧ lastFetch.pc.toNat ≤ 4094 ∧
      decode [lastFetch.byteAt lastFetch.pc.toNat, lastFetch.byteAt (lastFetch.pc.toNat + 1)] = .ok (.ldVxNn 0 0x05, []) :=
  ⟨by decide, by decide, by rfl⟩

theorem witness_PlacedWordRunsNext :
    decodeTableWord 16 0xF265 = some (.ldVxMem 2) := by decide

theorem witness_HaltedCoreStays :
    haltedCore.fault.kind ≠ none ∧ ([] : List Byte).length ≤ 3584 ∧ 3584 < (List.replicate 3585 (0 : Byte)).length := by
  simp only [List.length_replicate]; decide

/-- A state about to execute `00EE` on an empty stack. -/
def aboutToUnderflow : State := State.reset.withFetchWord 16 0x00EE

theorem witness_FaultingStepChangesOnlyFault_fetch :
    pastFetch.fault.kind = none ∧ 4096 ≤ pastFetch.pc.toNat + 1 ∧
      ∃ t, step pastFetch = .next t ∧ t.fault.kind ≠ none :=
  ⟨by decide, by decide, _, rfl, by decide⟩

theorem witness_FaultingStepChangesOnlyFault_decode :
    State.reset.fault.kind = none ∧ State.reset.pc.toNat + 1 < 4096 ∧
      ∃ t, step State.reset = .next t ∧ t.fault.kind ≠ none ∧ decodeWord t.fault.opcode = none :=
  ⟨by decide, by decide, haltedCore, next_of (by decide), by decide, by decide⟩

theorem witness_FaultingStepChangesOnlyFault_execute :
    aboutToUnderflow.fault.kind = none ∧ aboutToUnderflow.pc.toNat + 1 < 4096 ∧
      step aboutToUnderflow = .next { aboutToUnderflow with fault := ⟨some .stackUnderflow, 0x200, 0x00EE⟩ } ∧
      decodeWord 0x00EE#16 = some .ret :=
  ⟨by decide, by decide, next_of (by decide), by decide⟩

theorem witness_FaultsAreExactlyAsTabled :
    (pastFetch.fault.kind = none ∧ 4096 ≤ pastFetch.pc.toNat + 1) ∧
      (({ State.reset with pc := 0xFFE } : State).pc.toNat + 1 < 4096 ∧
        decodeWord ({ State.reset with pc := 0xFFE } : State).fetchedWord = none) ∧
      faultOf State.reset .ret = some .stackUnderflow ∧ faultOf { State.reset with sp := 1 } .ret = none ∧
      faultOf { State.reset with sp := 16 } (.call 0) = some .stackOverflow ∧
      faultOf { State.reset with sp := 15 } (.call 0) = none := by decide

theorem witness_FaultsAreExactlyAsTabled_data :
    faultOf { State.reset with i := 0xFFE } (.ldBVx 0) = some .outOfBounds ∧
      faultOf { State.reset with i := 0xFFD } (.ldBVx 0) = none ∧
      faultOf { State.reset with i := 0xFF1 } (.ldMemVx 15) = some .outOfBounds ∧
      faultOf { State.reset with i := 0xFF0 } (.ldMemVx 15) = none ∧
      faultOf { State.reset with i := 0xFFF } (.drw 0 0 2) = some .outOfBounds ∧
      faultOf { State.reset with i := 0xFFF } (.drw 0 0 1) = none ∧
      faultOf { State.reset with i := 0xFFFF } (.drw 0 0 0) = none := by decide

theorem witness_OnlyRandomDependsOnTheDraw :
    (∀ x nn, Instr.cls ≠ .rnd x nn) ∧ exec .cls State.reset = .next { State.reset with pc := 0x202 } :=
  ⟨nofun, next_of (by decide)⟩

theorem witness_RetPopsOrUnderflows :
    ({ State.reset with sp := 1 } : State).sp.val = (0 : Fin 16).val + 1 ∧
      ({ State.reset with sp := 16 } : State).sp.val = (15 : Fin 16).val + 1 ∧ State.reset.sp.val = 0 := by decide

theorem witness_CallPushesOrOverflows :
    State.reset.sp.val = (0 : Fin 16).val ∧ ({ State.reset with sp := 15 } : State).sp.val = (15 : Fin 16).val ∧
      ({ State.reset with sp := 16 } : State).sp.val = 16 ∧ (1 : Fin 16) ≠ 0 := by decide

/-- The state after a CALL 0x300 from the last free stack slot. -/
def afterCall : State :=
  { State.reset with pc := 0x300, sp := 16, stack := (Vector.replicate 16 0).set 15 0x202 }

theorem witness_ReturnMatchesCall :
    ({ State.reset with sp := 15 } : State).sp.val < 16 ∧
      exec (.call 0x300) { State.reset with sp := 15 } = .next afterCall ∧
      ({ afterCall with i := 7 } : State).sp = afterCall.sp ∧
      ({ afterCall with i := 7 } : State).stack = afterCall.stack :=
  ⟨by decide, next_of (by decide), by decide, by decide⟩

theorem witness_JumpToItselfIsAFixedPoint :
    (State.reset.withFetchWord 16 0x1200).fetchDecode = .ok (.jp 0x200) ∧
      (0x200 : Addr12).setWidth 16 = (State.reset.withFetchWord 16 0x1200).pc :=
  ⟨by rfl, by decide⟩

theorem witness_RandomIsTheMaskedDraw :
    (State.reset.withFetchWord 16 0xC10F).fault.kind = none ∧
      (State.reset.withFetchWord 16 0xC10F).fetchDecode = .ok (.rnd 1 0x0F) ∧ (0 : Reg) ≠ 1 :=
  ⟨by decide, by rfl, by decide⟩

/-- Also the hypotheses of SubtractionsSetStrictFlag and ShiftsMoveOneBitOut, and those on a register of ImmediateResults,
MoveAndLogicResults and TimerTransfers. -/
theorem witness_AddSetsCarry :
    (1 : Reg) ≠ 15 ∧ (2 : Reg) ≠ 1 ∧ (2 : Reg) ≠ 15 := by decide

theorem witness_DecimalDigitsAreStored :
    (0xFFD#16).toNat + 2 < 4096 ∧ 4096 ≤ (0xFFE#16).toNat + 2 ∧ ¬((0xFFD#16).toNat ≤ 0xFFC ∧
      0xFFC ≤ (0xFFD#16).toNat + 2) := by decide

theorem witness_RegisterRangeIsStored :
    (0xFF0#16).toNat + (15 : Reg).val < 4096 ∧ 4096 ≤ (0xFF1#16).toNat + (15 : Reg).val ∧ (15 : Reg) ≤ 15 ∧
      ¬((0xFF0#16).toNat ≤ 0xFEF ∧ 0xFEF ≤ (0xFF0#16).toNat + 15) := by decide

theorem witness_RegisterRangeIsLoaded :
    (0xFF0#16).toNat + (15 : Reg).val < 4096 ∧ 4096 ≤ (0xFF1#16).toNat + (15 : Reg).val ∧ (2 : Reg) ≤ 2 ∧
      (2 : Reg) < 3 := by decide

/-- V0 = 0x12, V1 = 0x0A, I = 0x20A: about to store a jump over its own code. -/
def storing : State := start [(0, 0x12), (1, 0x0A)] 0x20A

/-- `storing` after `F155`. -/
def stored : State := { storing with mem := [(0x20A, 0x12), (0x20B, 0x0A)], pc := 0x202 }

theorem witness_LoadAfterStoreGivesTheRegisters :
    storing.i.toNat + (1 : Reg).val < 4096 ∧ exec (.ldMemVx 1) storing = .next stored ∧
      (stored.setReg 0 9).i = storing.i ∧ (stored.setReg 0 9).mem = stored.mem ∧ (1 : Reg) ≤ 1 :=
  ⟨by decide, next_of (by decide), by decide, by decide, by decide⟩

/-- `FX55`: the last stored byte, as the first and as the second byte of a fetched word. -/
theorem witness_StoredBytesAreFetched_range :
    storing.i.toNat + (1 : Reg).val < 4096 ∧ exec (.ldMemVx 1) storing = .next stored ∧ (1 : Reg) ≤ 1 ∧
      ((stored.setPc 0x20B).mem = stored.mem ∧ (stored.setPc 0x20B).pc.toNat = storing.i.toNat + (1 : Reg).val) ∧
      ((stored.setPc 0x20A).mem = stored.mem ∧ (stored.setPc 0x20A).pc.toNat + 1 = storing.i.toNat + (1 : Reg).val) :=
  ⟨by decide, next_of (by decide), by decide, by decide, by decide⟩

/-- V3 = 123 and I = 0xFFD: about to store digits in the last three bytes of memory (IX19). -/
def storingDigits : State := start [(3, 0x7B)] 0xFFD

/-- `storingDigits` after `F333`. -/
def storedDigits : State := { storingDigits with mem := [(0xFFD, 1), (0xFFE, 2), (0xFFF, 3)], pc := 0x202 }

/-- `FX33`: the first digit as the first byte of a fetched word, the last as the second byte of the last word of memory. -/
theorem witness_StoredBytesAreFetched_digits :
    storingDigits.i.toNat + 2 < 4096 ∧ exec (.ldBVx 3) storingDigits = .next storedDigits ∧
      ((storedDigits.setPc 0xFFD).mem = storedDigits.mem ∧ 1 = (storingDigits.reg 3).toNat / 100 ∧
        (storedDigits.setPc 0xFFD).pc.toNat = storingDigits.i.toNat + 0) ∧
      ((storedDigits.setPc 0xFFE).mem = storedDigits.mem ∧ 3 = (storingDigits.reg 3).toNat % 10 ∧
        (storedDigits.setPc 0xFFE).pc.toNat + 1 = storingDigits.i.toNat + 2) ∧
      2 = (storingDigits.reg 3).toNat / 10 % 10 :=
  ⟨by decide, next_of (by decide), by decide, by decide, by decide⟩

theorem witness_DataOutOfBoundsFaults :
    4096 ≤ (0xFFE#16).toNat + 2 ∧ 4096 ≤ (0xFFF#16).toNat + (1 : Reg).val ∧
      (0 < (2 : Height).val ∧ 4096 ≤ (0xFFF#16).toNat + ((2 : Height).val - 1)) := by decide

theorem witness_CanonicalMemoryIsUnique :
    Memory.wf [(0x300, 1)] ∧ ∀ a, Memory.read [(0x300, 1)] a = Memory.read [(0x300, 1)] a :=
  ⟨by decide, fun _ => rfl⟩

/-- About to draw the one-row sprite 0xF0 from the last byte of memory, with one pixel of it on. -/
def drawing : State := { withPixel 0 3 (start [] 0xFFF) with mem := [(0xFFF, 0xF0)] }

theorem witness_DrawXorsTheSprite :
    (0 < (1 : Height).val → drawing.i.toNat + (1 : Height).val - 1 < 4096) ∧
      (drawing.pixel 0 3 = true ∧
        spriteBitAt (drawing.reg 0).toNat (drawing.reg 1).toNat (Memory.readAll drawing.mem drawing.i.toNat 1) 0 3 = true) ∧
      (0 < (2 : Height).val ∧ 4096 ≤ drawing.i.toNat + (2 : Height).val - 1) := by decide

theorem witness_DrawXorsTheSprite_no_collision :
    (0 < (0 : Height).val → (0xFFFF#16).toNat + (0 : Height).val - 1 < 4096) ∧
      ∀ row col, State.reset.pixel row col = true → spriteBitAt 0 0 (Memory.readAll State.reset.mem 0 1) row col = false := by
  refine ⟨by decide, fun row col h => absurd h ?_⟩
  show ¬ (Vector.get (Vector.replicate 32 (0 : BitVec 64)) row).getLsbD col.val = true
  simp [Vector.get_eq_getElem]

theorem witness_DrawTwiceRestoresTheScreen :
    (0 : Reg) ≠ 15 ∧ (1 : Reg) ≠ 15 ∧ (0 < (1 : Height).val → (0 : Nat) + (1 : Height).val - 1 < 4096) ∧
      exec (.drw 0 1 1) State.reset = .next (State.reset.finishDraw 0 1 1) ∧
      exec (.drw 0 1 1) (State.reset.finishDraw 0 1 1) = .next ((State.reset.finishDraw 0 1 1).finishDraw 0 1 1) ∧
      (∀ row col, State.reset.pixel row col = false) ∧ State.reset.byteAt 0 ≠ 0 := by
  refine ⟨by decide, by decide, by decide, by rfl, by rfl, fun row col => ?_, by decide⟩
  show (Vector.get (Vector.replicate 32 (0 : BitVec 64)) row).getLsbD col.val = false
  simp [Vector.get_eq_getElem]

theorem witness_KeySkips :
    ((start [(5, 0xFF)] 0).reg 5).toNat % 16 = (15 : Reg).val := by decide

theorem witness_KeyWaitTakesTheLeastKey :
    ((withKeys [15] State.reset).pressed 15 = true ∧
      ∀ j : Reg, j < 15 → (withKeys [15] State.reset).pressed j = false) ∧
      ((withKeys [0] State.reset).pressed 0 = true ∧
      ∀ j : Reg, j < 0 → (withKeys [0] State.reset).pressed j = false) ∧
      ∀ k, State.reset.pressed k = false := by decide

theorem witness_KeyWaitLeavesTheState :
    (State.reset.withFetchWord 16 0xF30A).fault.kind = none ∧
      (State.reset.withFetchWord 16 0xF30A).fetchDecode = .ok (.ldVxK 3) ∧
      (∀ k, (State.reset.withFetchWord 16 0xF30A).pressed k = false) ∧
      (Vector.replicate 16 true).get (15 : Reg) = true :=
  ⟨by decide, by rfl, by decide, by decide⟩

theorem witness_RegisterFrame :
    exec (.addVxNn 1 2) State.reset = .next { State.reset with v := State.reset.v.set 1 2, pc := 0x202 } ∧
      writesReg (.addVxNn 1 2) 2 = false :=
  ⟨next_of (by decide), by decide⟩

/-- Just above the two bytes `F155` stores. -/
theorem witness_MemoryFrame :
    exec (.ldMemVx 1) storing = .next stored ∧ (∀ x, Instr.ldMemVx 1 = .ldBVx x → ¬(storing.i.toNat ≤ 0x20C ∧
      0x20C < storing.i.toNat + 3)) ∧
      ∀ x, Instr.ldMemVx 1 = .ldMemVx x → ¬(storing.i.toNat ≤ 0x20C ∧ 0x20C < storing.i.toNat + x.val + 1) := by
  refine ⟨next_of (by decide), fun x h => Instr.noConfusion h, fun x h => ?_⟩
  cases h
  decide

theorem witness_IndexAndStackFrame :
    exec .cls State.reset = .next { State.reset with pc := 0x202 } ∧ (∀ nnn, Instr.cls ≠ .ldINnn nnn) ∧
      (∀ x, Instr.cls ≠ .addIVx x) ∧
      (∀ x, Instr.cls ≠ .ldFVx x) ∧ (∀ nnn, Instr.cls ≠ .call nnn) ∧ Instr.cls ≠ .ret :=
  ⟨next_of (by decide), nofun, nofun, nofun, nofun, nofun⟩

theorem witness_TimerFrame :
    exec .cls State.reset = .next { State.reset with pc := 0x202 } ∧ (∀ x, Instr.cls ≠ .ldDtVx x) ∧
      ∀ x, Instr.cls ≠ .ldStVx x :=
  ⟨next_of (by decide), nofun, nofun⟩

theorem witness_KeypadAndScreenFrame :
    exec (.jp 0) State.reset = .next { State.reset with pc := 0 } ∧ Instr.jp 0 ≠ .cls ∧
      ∀ x y n, Instr.jp 0 ≠ .drw x y n :=
  ⟨next_of (by decide), nofun, nofun⟩

theorem witness_SequentialPc :
    exec .cls State.reset = .next { State.reset with pc := 0x202 } ∧ faultOf State.reset .cls = none ∧
      (∀ nnn, Instr.cls ≠ .jp nnn ∧ Instr.cls ≠ .call nnn ∧ Instr.cls ≠ .jpV0 nnn) ∧ Instr.cls ≠ .ret ∧
      (∀ x nn, Instr.cls ≠ .seVxNn x nn ∧ Instr.cls ≠ .sneVxNn x nn) ∧
      (∀ x y, Instr.cls ≠ .seVxVy x y ∧ Instr.cls ≠ .sneVxVy x y) ∧ (∀ x, Instr.cls ≠ .skp x ∧
      Instr.cls ≠ .sknp x) ∧
      ∀ x, Instr.cls = .ldVxK x → ∃ k, State.reset.pressed k = true := by
  refine ⟨next_of (by decide), by decide, fun _ => ⟨nofun, nofun, nofun⟩, nofun, fun _ _ => ⟨nofun, nofun⟩, fun _ _ => ⟨nofun, nofun⟩,
    fun _ => ⟨nofun, nofun⟩, nofun⟩

theorem witness_TickCommutesWithOtherInstructions :
    (∀ x, Instr.cls ≠ .ldVxDt x ∧ Instr.cls ≠ .ldDtVx x ∧ Instr.cls ≠ .ldStVx x) ∧
      exec .cls { State.reset with dt := 5 } = .next { State.reset with dt := 5, pc := 0x202 } :=
  ⟨fun _ => ⟨nofun, nofun, nofun⟩, next_of (by decide)⟩

theorem witness_SetKeysCommutesWithOtherInstructions :
    (∀ x, Instr.cls ≠ .skp x ∧ Instr.cls ≠ .sknp x ∧ Instr.cls ≠ .ldVxK x) ∧
      exec .cls State.reset = .next { State.reset with pc := 0x202 } :=
  ⟨fun _ => ⟨nofun, nofun, nofun⟩, next_of (by decide)⟩

/-- A state reached by a CALL meets the invariant: one return address in use. -/
def insideCall : State := { State.reset with pc := 0x300, sp := 1, stack := (Vector.replicate 16 0).set 0 0x202 }

theorem insideCall_inv : insideCall.Inv :=
  ⟨by decide, by decide, by decide, ⟨rfl, rfl⟩⟩

theorem witness_StepKeepsTheInvariant :
    insideCall.Inv ∧ step insideCall = .next { insideCall with fault := ⟨some .unknownOpcode, 0x300, 0⟩ } :=
  ⟨insideCall_inv, next_of (by decide)⟩

theorem witness_EveryInterleavingKeepsTheInvariant :
    insideCall.Inv ∧ performAll [.tick, .getFramebuffer, .step] insideCall =
      .next { insideCall with fault := ⟨some .unknownOpcode, 0x300, 0⟩ } :=
  ⟨insideCall_inv, next_of (by decide)⟩

end Sys2Proof.Tests
end

section
/-!
PROOF. The state after reset, read through the accessors (spec/10_state.md R23; spec/20_memory.md R31, R35).
-/

namespace Sys2Proof.Machine

theorem font_length : font.length = 80 := rfl

theorem Memory.unlisted_eq_font {a : Nat} (h : a < font.length) : Memory.unlisted a = font[a] :=
  List.getD_eq_getElem font 0 h

theorem Memory.unlisted_eq_zero {a : Nat} (h : 80 ≤ a) : Memory.unlisted a = 0 :=
  List.getD_eq_default font 0 (font_length ▸ h)

@[simp] theorem State.reset_reg (x : Reg) : State.reset.reg x = 0 := Vector.get_replicate _ 0 x

@[simp] theorem State.reset_stack_get (k : Fin 16) : State.reset.stack.get k = 0 := Vector.get_replicate _ 0 k

@[simp] theorem State.reset_pressed (k : Reg) : State.reset.pressed k = false := Vector.get_replicate _ false k

@[simp] theorem State.reset_pixel (row : Fin 32) (col : Fin 64) : State.reset.pixel row col = false := by
  have blankRow : State.reset.fb.get row = 0 := Vector.get_replicate _ 0 row
  rw [State.pixel, pixelOf, blankRow]
  exact BitVec.getLsbD_zero

/-- No cell is listed at reset, so every address reads as its reset contents. -/
@[simp] theorem State.reset_byteAt (a : Nat) : State.reset.byteAt a = Memory.unlisted a := Memory.read_nil a

/-- Settles O1: the reads after reset, one line of the table R23 after another; memory is split at the end of FONT. -/
theorem resetStateIsTheTable : Obligations.ResetStateIsTheTable := by
  unfold Obligations.ResetStateIsTheTable
  refine ⟨State.reset_reg, rfl, rfl, rfl, State.reset_stack_get, rfl, rfl, State.reset_pressed, State.reset_pixel,
    fun k h => ?fontBytes, fun a h _ => ?zeroBytes, rfl⟩
  case fontBytes => rw [State.reset_byteAt, Memory.unlisted_eq_font (font_length ▸ h)]
  case zeroBytes => rw [State.reset_byteAt, Memory.unlisted_eq_zero h]

end Sys2Proof.Machine
end

section
/-!
PROOF. Data accesses against the end of memory (spec/20_memory.md R36): the bound check of the draw said once, as
Laws/Ops.lean says it for the transfers, and the arms of the three transfers and the draw.
-/

namespace Sys2Proof.Machine

section Access

variable (s : State) (x y : Reg) (n : Height)

theorem exec_ldBVx : exec (.ldBVx x) s =
    transfer 2 (encode (.ldBVx x)) s (s.storeBytes s.i.toNat (decimalDigits (s.reg x))) := rfl

theorem exec_ldMemVx : exec (.ldMemVx x) s =
    transfer x.val (encode (.ldMemVx x)) s (s.storeBytes s.i.toNat (s.regsUpTo x)) := rfl

theorem exec_ldVxMem : exec (.ldVxMem x) s =
    transfer x.val (encode (.ldVxMem x)) s (s.loadRegsUpTo x) := rfl

theorem exec_drw : exec (.drw x y n) s = execDrw x y n s := rfl

theorem execDrw_outside (hn : 0 < n.val) (h : 4096 ≤ s.i.toNat + (n.val - 1)) :
    execDrw x y n s = raise .outOfBounds (encode (.drw x y n)) s := by
  simp [execDrw, hn, (State.outside_iff s _).mpr h]

/-- A draw completes when its last byte, if it has one, lies inside memory. -/
theorem execDrw_inside (h : 0 < n.val → s.i.toNat + (n.val - 1) < 4096) :
    execDrw x y n s = .next (s.finishDraw x y n) := by
  have inside : ¬ (0 < n.val && s.outside (n.val - 1)) = true := by
    rw [Bool.and_eq_true, decide_eq_true_iff, State.outside_iff]
    omega
  rw [execDrw, if_neg inside]

@[simp] theorem State.finishDraw_fault : (s.finishDraw x y n).fault = s.fault := rfl

end Access

/-- Settles O39: each of the four accesses meets its bound check before anything moves; a draw of height 0 has no byte to
check. -/
theorem dataOutOfBoundsFaults : Obligations.DataOutOfBoundsFaults := by
  unfold Obligations.DataOutOfBoundsFaults
  refine ⟨fun s i x y n h => ?faults, fun s x y => ?emptyDraw⟩
  case faults =>
    change exec i s = raise .outOfBounds (encode i) s
    obtain ⟨rfl, hb⟩ | ⟨rfl | rfl, hb⟩ | ⟨rfl, hn, hb⟩ := h
    · rw [exec_ldBVx, transfer_outside _ _ _ hb]
    · rw [exec_ldMemVx, transfer_outside _ _ _ hb]
    · rw [exec_ldVxMem, transfer_outside _ _ _ hb]
    · rw [exec_drw, execDrw_outside _ _ _ _ hn hb]
  case emptyDraw =>
    have noByte : ¬ 0 < (0 : Height).val := Nat.lt_irrefl 0
    exact ⟨s.finishDraw x y 0, execDrw_inside s x y 0 (absurd · noByte), s.finishDraw_fault x y 0⟩

end Sys2Proof.Machine
end

section
/-!
PROOF. The field-by-field decoder against the opcode map of masks and matches (spec/30_encoding.md R51 to R56): a decoded word is
the encoding of its instruction, so the instruction's own row selects it; a word that a row selects has the fields that the
decoder reads; and two rows differ in a bit that both masks keep.
-/

namespace Sys2Proof

/-! ### A word is put together again from its fields (R51, R52) -/

section Fields

variable {w : Word} {f : BitVec 4}

theorem wordNNN_of_fields (hf : (famOf w).val = f.toNat) : wordNNN f (nnnOf w) = w := by
  apply BitVec.eq_of_toNat_eq
  rw [wordNNN_toNat, ← hf, famOf_val, nnnOf_toNat]
  omega

theorem wordXNN_of_fields {nn : Byte} (hf : (famOf w).val = f.toNat) (hnn : (nnOf w).toNat = nn.toNat) :
    wordXNN f (xOf w) nn = w := by
  apply BitVec.eq_of_toNat_eq
  rw [wordXNN_toNat, ← hf, ← hnn, famOf_val, xOf_val, nnOf_toNat]
  omega

theorem wordXYN_of_fields {n : Fin 16} (hf : (famOf w).val = f.toNat) (hn : (nOf w).val = n.val) :
    wordXYN f (xOf w) (yOf w) n = w := by
  apply BitVec.eq_of_toNat_eq
  rw [wordXYN_toNat, ← hf, ← hn, famOf_val, xOf_val, yOf_val, nOf_val]
  omega

end Fields

/-! ### A decoded word is the encoding of its instruction -/

section EncodeOfDecoded

variable {w : Word} {i : Instr}

theorem encode_of_decodeAlu (hf : (famOf w).val = 0x8) (h : decodeAlu w = some i) : encode i = w := by
  unfold decodeAlu at h
  split at h <;> cases h <;> exact wordXYN_of_fields hf ‹_›

theorem encode_of_decodeKey (hf : (famOf w).val = 0xE) (h : decodeKey w = some i) : encode i = w := by
  unfold decodeKey at h
  split at h <;> cases h <;> exact wordXNN_of_fields hf ‹_›

theorem encode_of_decodeMisc (hf : (famOf w).val = 0xF) (h : decodeMisc w = some i) : encode i = w := by
  unfold decodeMisc at h
  split at h <;> cases h <;> exact wordXNN_of_fields hf ‹_›

theorem encode_of_decodeWord (h : decodeWord w = some i) : encode i = w := by
  unfold decodeWord at h
  split at h
  next =>
    split_ifs at h with hcls hret <;> cases h
    · exact hcls.symm
    · exact hret.symm
  next hf => cases h; exact wordNNN_of_fields hf
  next hf => cases h; exact wordNNN_of_fields hf
  next hf => cases h; exact wordXNN_of_fields hf rfl
  next hf => cases h; exact wordXNN_of_fields hf rfl
  next hf =>
    split_ifs at h with hn; cases h
    exact wordXYN_of_fields hf (congrArg Fin.val hn)
  next hf => cases h; exact wordXNN_of_fields hf rfl
  next hf => cases h; exact wordXNN_of_fields hf rfl
  next hf => exact encode_of_decodeAlu hf h
  next hf =>
    split_ifs at h with hn; cases h
    exact wordXYN_of_fields hf (congrArg Fin.val hn)
  next hf => cases h; exact wordNNN_of_fields hf
  next hf => cases h; exact wordNNN_of_fields hf
  next hf => cases h; exact wordXNN_of_fields hf rfl
  next hf => cases h; exact wordXYN_of_fields hf rfl
  next hf => exact encode_of_decodeKey hf h
  next hf => exact encode_of_decodeMisc hf h
  next => cases h

end EncodeOfDecoded

/-- The support family of Laws/PerInstr.lean as one statement about every instruction. -/
theorem encodesToItsRow : ∀ i : Instr, Laws.EncodesToItsRow.Statement i
  | .cls => Laws.EncodesToItsRow.cls
  | .ret => Laws.EncodesToItsRow.ret
  | .jp nnn => Laws.EncodesToItsRow.jp nnn
  | .call nnn => Laws.EncodesToItsRow.call nnn
  | .seVxNn x nn => Laws.EncodesToItsRow.seVxNn x nn
  | .sneVxNn x nn => Laws.EncodesToItsRow.sneVxNn x nn
  | .seVxVy x y => Laws.EncodesToItsRow.seVxVy x y
  | .ldVxNn x nn => Laws.EncodesToItsRow.ldVxNn x nn
  | .addVxNn x nn => Laws.EncodesToItsRow.addVxNn x nn
  | .ldVxVy x y => Laws.EncodesToItsRow.ldVxVy x y
  | .or x y => Laws.EncodesToItsRow.or x y
  | .and x y => Laws.EncodesToItsRow.and x y
  | .xor x y => Laws.EncodesToItsRow.xor x y
  | .addVxVy x y => Laws.EncodesToItsRow.addVxVy x y
  | .sub x y => Laws.EncodesToItsRow.sub x y
  | .shr x y => Laws.EncodesToItsRow.shr x y
  | .subn x y => Laws.EncodesToItsRow.subn x y
  | .shl x y => Laws.EncodesToItsRow.shl x y
  | .sneVxVy x y => Laws.EncodesToItsRow.sneVxVy x y
  | .ldINnn nnn => Laws.EncodesToItsRow.ldINnn nnn
  | .jpV0 nnn => Laws.EncodesToItsRow.jpV0 nnn
  | .rnd x nn => Laws.EncodesToItsRow.rnd x nn
  | .drw x y n => Laws.EncodesToItsRow.drw x y n
  | .skp x => Laws.EncodesToItsRow.skp x
  | .sknp x => Laws.EncodesToItsRow.sknp x
  | .ldVxDt x => Laws.EncodesToItsRow.ldVxDt x
  | .ldVxK x => Laws.EncodesToItsRow.ldVxK x
  | .ldDtVx x => Laws.EncodesToItsRow.ldDtVx x
  | .ldStVx x => Laws.EncodesToItsRow.ldStVx x
  | .addIVx x => Laws.EncodesToItsRow.addIVx x
  | .ldFVx x => Laws.EncodesToItsRow.ldFVx x
  | .ldBVx x => Laws.EncodesToItsRow.ldBVx x
  | .ldMemVx x => Laws.EncodesToItsRow.ldMemVx x
  | .ldVxMem x => Laws.EncodesToItsRow.ldVxMem x

theorem row_of_decoded {w : Word} {i : Instr} (h : decodeWord w = some i) :
    ∃ r ∈ opcodeMap, r.mnemonic = i.mnemonic ∧ r.selects w = true :=
  encode_of_decodeWord h ▸ encodesToItsRow i

/-! ### A word that a row selects has the fields the decoder reads -/

/-- The families whose every word is an instruction: their rows keep `op[15:12]` alone (R56). -/
def wholeFamilies : List Nat := [0x1, 0x2, 0x3, 0x4, 0x6, 0x7, 0xA, 0xB, 0xC, 0xD]

/-- Family and low nibble of the rows that keep these two fields (R56). -/
def nibbleSelectors : List (Nat × Nat) :=
  [(0x5, 0x0), (0x8, 0x0), (0x8, 0x1), (0x8, 0x2), (0x8, 0x3), (0x8, 0x4), (0x8, 0x5), (0x8, 0x6), (0x8, 0x7), (0x8, 0xE),
   (0x9, 0x0)]

/-- Family and low byte of the rows that keep these two fields (R56). -/
def byteSelectors : List (Nat × Nat) :=
  [(0xE, 0x9E), (0xE, 0xA1), (0xF, 0x07), (0xF, 0x0A), (0xF, 0x15), (0xF, 0x18), (0xF, 0x1E), (0xF, 0x29), (0xF, 0x33),
   (0xF, 0x55), (0xF, 0x65)]

/-- Each row by its mask: the fields that the mask keeps hold, in the row's pattern, values that the decoder accepts (R55, R56). -/
theorem opcodeMap_masks : ∀ r ∈ opcodeMap,
    (r.mask = 0xFFFF#16 ∧ (decodeWord r.pattern).isSome) ∨
    (r.mask = 0xF000#16 ∧ (famOf r.pattern).val ∈ wholeFamilies) ∨
    (r.mask = 0xF00F#16 ∧ ((famOf r.pattern).val, (nOf r.pattern).val) ∈ nibbleSelectors) ∨
    (r.mask = 0xF0FF#16 ∧ ((famOf r.pattern).val, (nnOf r.pattern).toNat) ∈ byteSelectors) := by
  decide

section Decodes

variable {w : Word}

/-! One case per value of the list: the decoder's match takes the branch of that value. -/

theorem decodes_of_family : ∀ f ∈ wholeFamilies, (famOf w).val = f → (decodeWord w).isSome = true := by
  simp +contextual [wholeFamilies, decodeWord]

theorem decodes_of_nibble :
    ∀ p ∈ nibbleSelectors, (famOf w).val = p.1 → (nOf w).val = p.2 → (decodeWord w).isSome = true := by
  simp +contextual [nibbleSelectors, decodeWord, decodeAlu]

theorem decodes_of_byte :
    ∀ p ∈ byteSelectors, (famOf w).val = p.1 → (nnOf w).toNat = p.2 → (decodeWord w).isSome = true := by
  simp +contextual [byteSelectors, decodeWord, decodeKey, decodeMisc]

end Decodes

theorem decodes_of_selects {w : Word} {r : OpcodeRow} (hr : r ∈ opcodeMap) (h : r.selects w = true) :
    (decodeWord w).isSome = true := by
  have masks := opcodeMap_masks r hr
  obtain ⟨m, mask, p⟩ := r
  dsimp only at masks
  obtain ⟨rfl, hp⟩ | ⟨rfl, hp⟩ | ⟨rfl, hp⟩ | ⟨rfl, hp⟩ := masks
  · have hw : w = p := BitVec.eq_of_toNat_eq ((selects_whole m p w).mp h)
    exact hw ▸ hp
  · have hw := (selects_family m p w).mp h
    refine decodes_of_family _ hp ?_
    rw [famOf_val, famOf_val]; omega
  · have hw := (selects_nibble m p w).mp h
    refine decodes_of_nibble _ hp ?_ ?_
    · rw [famOf_val, famOf_val]; omega
    · rw [nOf_val, nOf_val]; omega
  · have hw := (selects_byte m p w).mp h
    refine decodes_of_byte _ hp ?_ ?_
    · rw [famOf_val, famOf_val]; omega
    · rw [nnOf_toNat, nnOf_toNat]; omega

theorem legalWord_iff (w : Word) : legalWord w = true ↔ ∃ r ∈ opcodeMap, r.selects w = true := List.any_eq_true

theorem decodeWord_isSome_iff (w : Word) : (decodeWord w).isSome = true ↔ ∃ r ∈ opcodeMap, r.selects w = true := by
  constructor
  · intro h
    obtain ⟨i, hi⟩ := Option.isSome_iff_exists.mp h
    obtain ⟨r, hr, -, hs⟩ := row_of_decoded hi
    exact ⟨r, hr, hs⟩
  · rintro ⟨r, hr, hs⟩
    exact decodes_of_selects hr hs

/-! ### No two rows select one word -/

/-- Two rows conflict when their patterns differ in a bit that both masks keep. -/
def OpcodeRow.Conflict (r r' : OpcodeRow) : Prop := r.pattern &&& r'.mask ≠ r'.pattern &&& r.mask

theorem OpcodeRow.conflict_symm : Std.Symm OpcodeRow.Conflict := ⟨fun _ _ h => h.symm⟩

/-- The kept bit of a word cannot be that of both patterns. -/
theorem OpcodeRow.Conflict.not_both {r r' : OpcodeRow} (h : r.Conflict r') (w : Word) :
    ¬(r.selects w = true ∧ r'.selects w = true) := by
  rintro ⟨hr, hr'⟩
  have e : w &&& r.mask = r.pattern := beq_iff_eq.mp hr
  have e' : w &&& r'.mask = r'.pattern := beq_iff_eq.mp hr'
  refine h ?_
  rw [← e, ← e', BitVec.and_assoc, BitVec.and_assoc, BitVec.and_comm r.mask]

theorem opcodeMap_conflict : opcodeMap.Pairwise OpcodeRow.Conflict := by
  unfold OpcodeRow.Conflict
  decide

theorem opcodeMap_selects_at_most_one (w : Word) :
    opcodeMap.Pairwise fun r r' => ¬(r.selects w = true ∧ r'.selects w = true) :=
  opcodeMap_conflict.imp fun h => h.not_both w

theorem selected_row_unique {w : Word} {r r' : OpcodeRow} (hr : r ∈ opcodeMap) (hr' : r' ∈ opcodeMap)
    (h : r.selects w = true) (h' : r'.selects w = true) : r = r' := by
  by_contra hne
  have := OpcodeRow.conflict_symm
  exact (opcodeMap_conflict.forall hr hr' hne).not_both w ⟨h, h'⟩

/-- Settles O11: decoding and selection agree in domain; the decoded instruction's row is the only one that selects the word. -/
theorem decoderAgreesWithOpcodeMap : Obligations.DecoderAgreesWithOpcodeMap := by
  unfold Obligations.DecoderAgreesWithOpcodeMap
  refine fun w => ⟨?domain, fun i hi r hr hs => ?row, opcodeMap_selects_at_most_one w⟩
  case domain => exact Bool.eq_iff_iff.mpr ((decodeWord_isSome_iff w).trans (legalWord_iff w).symm)
  case row =>
    obtain ⟨r', hr', hm, hs'⟩ := row_of_decoded hi
    exact selected_row_unique hr hr' hs hs' ▸ hm

end Sys2Proof
end

section
/-!
PROOF. The step cycle (spec/40_step_cycle.md R70 to R72, R76): a step of a core with no fault recorded, one equation for each of
its three branches, and what each operation of the outside agents does to FAULT.
-/

namespace Sys2Proof.Machine

section Branches

variable {s : State}

theorem step_of_outside (hf : s.fault.kind = none) (hp : 4096 ≤ s.pc.toNat + 1) :
    step s = .next { s with fault := { kind := some .outOfBounds, pc := s.pc, opcode := 0 } } :=
  step_of_error s hf (s.fetchDecode_outside hp)

theorem step_of_unknown (hf : s.fault.kind = none) (hp : s.pc.toNat + 1 < 4096) (hd : decodeWord s.fetchedWord = none) :
    step s = .next { s with fault := { kind := some .unknownOpcode, pc := s.pc, opcode := s.fetchedWord } } :=
  step_of_error s hf (s.fetchDecode_unknown hp hd)

theorem step_of_decoded {i : Instr} (hf : s.fault.kind = none) (hp : s.pc.toNat + 1 < 4096)
    (hd : decodeWord s.fetchedWord = some i) : step s = exec i s :=
  step_of_ok s hf (s.fetchDecode_ok hp hd)

end Branches

/-- Settles O13, branch by branch in the order of R70: halted, fetch fault, and the two answers of the decoder. -/
theorem stepCycle : Obligations.StepCycle := by
  unfold Obligations.StepCycle
  intro s
  split_ifs with hf hp
  case pos => exact step_of_halted s hf
  case pos => exact step_of_outside (not_not.mp hf) hp
  case neg =>
    have running : s.fault.kind = none := not_not.mp hf
    have inside : s.pc.toNat + 1 < 4096 := not_le.mp hp
    split
    next hd => exact step_of_unknown running inside hd
    next i hd => exact step_of_decoded running inside hd

section FaultRecord

variable (s : State) (keys : Vector Bool 16) {rom : List Byte}

@[simp] theorem tick_fault : (tick s).fault = s.fault := rfl

@[simp] theorem setKeys_key : (setKeys keys s).key = keys := rfl

@[simp] theorem setKeys_fault : (setKeys keys s).fault = s.fault := rfl

@[simp] theorem construct_fault : (construct s).fault = FaultRecord.clear := rfl

theorem load_fault_of_fits (h : rom.length ≤ 3584) : (load rom s).1.fault = FaultRecord.clear := by
  rw [load_of_fits s h, State.storeBytes_fault, construct_fault]

theorem load_fault_of_too_large (h : 3584 < rom.length) : (load rom s).1.fault = s.fault := by
  rw [load_of_too_large s h]

end FaultRecord

/-- Settles O16: the step's halted branch, then each operation's effect on FAULT; of these only the step depends on the halt. -/
theorem haltedCoreStays : Obligations.HaltedCoreStays := by
  unfold Obligations.HaltedCoreStays
  intro s halted
  refine ⟨step_of_halted s halted, ?picture, ?timers, tick_fault s, fun keys => ⟨setKeys_key s keys, setKeys_fault s keys⟩,
    construct_fault s, fun rom => ⟨load_fault_of_fits s, load_fault_of_too_large s⟩⟩
  case picture => rfl
  case timers => rfl

end Sys2Proof.Machine
end

section
/-!
PROOF. Control flow (spec/41_control_flow.md R80 to R88): RET and CALL by the answer of the stack operation they start with, the
targets of the jumps as numbers, and the four comparison skips by one law of `State.skipIf`.
-/

namespace Sys2Proof.Machine

section StackArms

variable {s t : State} {target : Word} (nnn : Addr12)

theorem exec_ret_of_pop (h : s.pop = some (target, t)) : exec .ret s = .next (t.setPc target) := by
  change execRet s = _
  rw [execRet, h]

theorem exec_ret_of_pop_none (h : s.pop = none) : exec .ret s = raise .stackUnderflow (encode .ret) s := by
  change execRet s = _
  rw [execRet, h]

theorem exec_call_of_push (h : s.push s.npc = some t) : exec (.call nnn) s = .next (t.setPc (zextAddr nnn)) := by
  change execCall nnn s = _
  rw [execCall, h]

theorem exec_call_of_push_none (h : s.push s.npc = none) :
    exec (.call nnn) s = raise .stackOverflow (encode (.call nnn)) s := by
  change execCall nnn s = _
  rw [execCall, h]

end StackArms

/-- Settles O21: the two answers of `pop`. -/
theorem retPopsOrUnderflows : Obligations.RetPopsOrUnderflows := by
  unfold Obligations.RetPopsOrUnderflows
  refine ⟨fun s k hsp => ?pops, fun s hsp => ?underflows⟩
  case pops => exact ⟨_, exec_ret_of_pop (s.pop_of_entry k hsp), rfl, rfl, rfl⟩
  case underflows => exact exec_ret_of_pop_none (s.pop_of_empty hsp)

/-- Settles O22: the two answers of `push`; an entry is read back through the one that was written. -/
theorem callPushesOrOverflows : Obligations.CallPushesOrOverflows := by
  unfold Obligations.CallPushesOrOverflows
  refine ⟨fun s nnn k hsp => ?pushes, fun s nnn hsp => ?overflows⟩
  case pushes =>
    have room : s.sp.val < 16 := hsp ▸ k.isLt
    have entry (j : Fin 16) : (s.stack.set s.sp.val s.npc).get j = if j.val = s.sp.val then s.npc else s.stack.get j :=
      stack_get_set s.stack s.sp.val room s.npc j
    refine ⟨_, exec_call_of_push nnn (s.push_of_room s.npc room), rfl, congrArg (· + 1) hsp, ?written, fun j hj => ?kept, rfl⟩
    case written => exact (entry k).trans (if_pos hsp.symm)
    case kept => exact (entry j).trans (if_neg fun e => hj (Fin.ext (e.trans hsp)))
  case overflows => exact exec_call_of_push_none nnn (s.push_of_full s.npc hsp)

section Targets

variable (s : State) (nnn : Addr12) (b : Byte)

theorem exec_jp : exec (.jp nnn) s = .next (s.setPc (zextAddr nnn)) := rfl

theorem exec_jpV0 : exec (.jpV0 nnn) s = .next (s.setPc (zextAddr nnn + zextByte (s.reg 0))) := rfl

theorem zextAddr_toNat : (zextAddr nnn).toNat = nnn.toNat := BitVec.toNat_setWidth_of_le (by decide)

theorem zextByte_toNat : (zextByte b).toNat = b.toNat := BitVec.toNat_setWidth_of_le (by decide)

/-- The largest sum is 0xFFF + 0xFF = 0x10FE, far below 2 ^ 16 (R88). -/
theorem zextAddr_add_zextByte_toNat : (zextAddr nnn + zextByte b).toNat = nnn.toNat + b.toNat := by
  have noWrap : nnn.toNat + b.toNat < 2 ^ 16 := by
    have := nnn.isLt
    have := b.isLt
    omega
  rw [BitVec.toNat_add, zextAddr_toNat, zextByte_toNat, Nat.mod_eq_of_lt noWrap]

end Targets

/-- Settles O24: both arms set PC alone, and the targets are exact as numbers. -/
theorem jumpsWriteTheTarget : Obligations.JumpsWriteTheTarget := by
  unfold Obligations.JumpsWriteTheTarget
  exact fun s nnn => ⟨⟨_, exec_jp s nnn, zextAddr_toNat nnn, rfl⟩,
    _, exec_jpV0 s nnn, zextAddr_add_zextByte_toNat nnn (s.reg 0), rfl⟩

section Skips

variable (s : State) (x y : Reg) (nn : Byte)

/-- A skip on a test that decides `p` ends at npc + 2 = pc0 + 4 exactly when `p` holds (R80). -/
theorem State.skipIf_of_iff {taken : Bool} {p : Prop} [Decidable p] (h : taken = true ↔ p) :
    s.skipIf taken = { s with pc := if p then s.pc + 4 else s.pc + 2 } := by
  have twice : s.npc + 2 = s.pc + 4 := BitVec.add_assoc s.pc 2 2
  rw [State.skipIf, State.setPc, twice, State.npc_eq, if_congr h rfl rfl]

theorem exec_seVxNn : exec (.seVxNn x nn) s = .next (s.skipIf (s.reg x == nn)) := rfl

theorem exec_sneVxNn : exec (.sneVxNn x nn) s = .next (s.skipIf (s.reg x != nn)) := rfl

theorem exec_seVxVy : exec (.seVxVy x y) s = .next (s.skipIf (s.reg x == s.reg y)) := rfl

theorem exec_sneVxVy : exec (.sneVxVy x y) s = .next (s.skipIf (s.reg x != s.reg y)) := rfl

end Skips

/-- Settles O26: each skip tests its comparison with `==` or `!=`, which decide equality and difference of bytes. -/
theorem comparisonSkips : Obligations.ComparisonSkips := by
  unfold Obligations.ComparisonSkips
  refine fun s x y nn => ⟨?seNn, ?sneNn, ?seVy, ?sneVy⟩
  case seNn => rw [exec_seVxNn, s.skipIf_of_iff beq_iff_eq]
  case sneNn => rw [exec_sneVxNn, s.skipIf_of_iff bne_iff_ne]
  case seVy => rw [exec_seVxVy, s.skipIf_of_iff beq_iff_eq]
  case sneVy => rw [exec_sneVxVy, s.skipIf_of_iff bne_iff_ne]

end Sys2Proof.Machine
end

section
/-!
PROOF. Immediate, register-to-register and shift instructions (spec/42_immediate_alu_random.md R90 to R101): the two common
endings read register by register, each instruction as one of them, and the results and flags as numbers.
-/

namespace Sys2Proof.Machine

/-! ### The two endings: a result alone, and a result followed by the flag (R90) -/

section Endings

variable (s : State) {x r : Reg} (b : Byte) (flag : Bool)

@[simp] theorem State.finishMove_reg_same (x : Reg) : (s.finishMove x b).reg x = b := by
  rw [State.finishMove, State.advance_reg, State.setReg_reg_same]

theorem State.finishMove_reg_other (h : r ≠ x) : (s.finishMove x b).reg r = s.reg r := by
  rw [State.finishMove, State.advance_reg, State.setReg_reg_other _ _ h]

theorem State.finishMove_frame (x : Reg) :
    s.finishMove x b = { s with v := (s.finishMove x b).v, pc := s.pc + 2 } := rfl

/-- The flag is written last, so VF holds it also when it is the destination. -/
@[simp] theorem State.finishFlag_reg_flag (x : Reg) : (s.finishFlag x b flag).reg flagReg = flagByte flag := by
  rw [State.finishFlag, State.advance_reg, State.writeWithFlag, State.setReg_reg_same]

theorem State.finishFlag_reg_result (h : x ≠ flagReg) : (s.finishFlag x b flag).reg x = b := by
  rw [State.finishFlag, State.advance_reg, State.writeWithFlag, State.setReg_reg_other _ _ h, State.setReg_reg_same]

theorem State.finishFlag_reg_other (hx : r ≠ x) (hf : r ≠ flagReg) : (s.finishFlag x b flag).reg r = s.reg r := by
  rw [State.finishFlag, State.advance_reg, State.writeWithFlag, State.setReg_reg_other _ _ hf,
    State.setReg_reg_other _ _ hx]

theorem State.finishFlag_frame (x : Reg) :
    s.finishFlag x b flag = { s with v := (s.finishFlag x b flag).v, pc := s.pc + 2 } := rfl

end Endings

section AluArms

variable (s : State) (x y : Reg) (nn : Byte)

theorem exec_ldVxNn : exec (.ldVxNn x nn) s = .next (s.finishMove x nn) := rfl

theorem exec_addVxNn : exec (.addVxNn x nn) s = .next (s.finishMove x (s.reg x + nn)) := rfl

theorem exec_ldVxVy : exec (.ldVxVy x y) s = .next (s.finishMove x (s.reg y)) := rfl

theorem exec_or : exec (.or x y) s = .next (s.finishMove x (s.reg x ||| s.reg y)) := rfl

theorem exec_and : exec (.and x y) s = .next (s.finishMove x (s.reg x &&& s.reg y)) := rfl

theorem exec_xor : exec (.xor x y) s = .next (s.finishMove x (s.reg x ^^^ s.reg y)) := rfl

theorem exec_addVxVy : exec (.addVxVy x y) s =
    .next (s.finishFlag x (s.reg x + s.reg y) (carryFlag (s.reg x) (s.reg y))) := rfl

theorem exec_sub : exec (.sub x y) s =
    .next (s.finishFlag x (s.reg x - s.reg y) (greaterFlag (s.reg x) (s.reg y))) := rfl

theorem exec_subn : exec (.subn x y) s =
    .next (s.finishFlag x (s.reg y - s.reg x) (greaterFlag (s.reg y) (s.reg x))) := rfl

theorem exec_shr : exec (.shr x y) s = .next (s.finishFlag x (s.reg x >>> 1) (shiftedOutRight (s.reg x))) := rfl

theorem exec_shl : exec (.shl x y) s = .next (s.finishFlag x (s.reg x <<< 1) (shiftedOutLeft (s.reg x))) := rfl

end AluArms

/-! ### Results and flags as numbers -/

section Numbers

variable (a b : Byte)

theorem byte_sub_toNat : (a - b).toNat = (a.toNat + 256 - b.toNat) % 256 := by
  have := b.isLt
  rw [BitVec.toNat_sub]
  omega

theorem byte_half_toNat : (a >>> 1).toNat = a.toNat / 2 := by
  rw [BitVec.toNat_ushiftRight, Nat.shiftRight_eq_div_pow, pow_one]

theorem byte_double_toNat : (a <<< 1).toNat = a.toNat * 2 % 256 := by
  rw [BitVec.toNat_shiftLeft, Nat.shiftLeft_eq, pow_one]

theorem flagByte_toNat (flag : Bool) : (flagByte flag).toNat = flag.toNat := by
  cases flag <;> rfl

theorem flagByte_decide (p : Prop) [Decidable p] : flagByte (decide p) = if p then 1 else 0 :=
  if_congr decide_eq_true_iff rfl rfl

theorem flagByte_carryFlag : flagByte (carryFlag a b) = if 255 < a.toNat + b.toNat then 1 else 0 := flagByte_decide _

theorem flagByte_greaterFlag : flagByte (greaterFlag a b) = if b.toNat < a.toNat then 1 else 0 := flagByte_decide _

theorem flagByte_shiftedOutRight_toNat : (flagByte (shiftedOutRight a)).toNat = a.toNat % 2 := by
  have bit : (a.toNat.testBit 0).toNat = a.toNat / 2 ^ 0 % 2 := Nat.toNat_testBit _ 0
  rw [flagByte_toNat, shiftedOutRight, ← BitVec.testBit_toNat, bit, pow_zero, Nat.div_one]

/-- Bit 7 is the top bit, so nothing stands above it in the quotient. -/
theorem flagByte_shiftedOutLeft_toNat : (flagByte (shiftedOutLeft a)).toNat = a.toNat / 128 := by
  have bit : (a.toNat.testBit 7).toNat = a.toNat / 2 ^ 7 % 2 := Nat.toNat_testBit _ 7
  have := a.isLt
  rw [flagByte_toNat, shiftedOutLeft, ← BitVec.testBit_toNat, bit]
  omega

end Numbers

/-- Settles O27: both instructions end with the result alone. -/
theorem immediateResults : Obligations.ImmediateResults := by
  unfold Obligations.ImmediateResults
  refine fun s x nn => ⟨?move, ?add⟩
  case move =>
    exact ⟨_, exec_ldVxNn s x nn, s.finishMove_reg_same _ x, fun _ => s.finishMove_reg_other _, s.finishMove_frame _ x⟩
  case add =>
    refine ⟨_, exec_addVxNn s x nn, ?sum, fun _ => s.finishMove_reg_other _, s.finishMove_frame _ x⟩
    rw [State.finishMove_reg_same, BitVec.toNat_add]

/-- Settles O28: each of the four ends with the result alone, and the bits of the result are the library's. -/
theorem moveAndLogicResults : Obligations.MoveAndLogicResults := by
  unfold Obligations.MoveAndLogicResults
  refine fun s x y => ⟨?copy, ?or, ?and, ?xor⟩
  case copy =>
    exact ⟨_, exec_ldVxVy s x y, s.finishMove_reg_same _ x, fun _ => s.finishMove_reg_other _, s.finishMove_frame _ x⟩
  case or =>
    refine ⟨_, exec_or s x y, fun k => ?orBits, fun _ => s.finishMove_reg_other _, s.finishMove_frame _ x⟩
    rw [State.finishMove_reg_same, BitVec.getLsbD_or]
  case and =>
    refine ⟨_, exec_and s x y, fun k => ?andBits, fun _ => s.finishMove_reg_other _, s.finishMove_frame _ x⟩
    rw [State.finishMove_reg_same, BitVec.getLsbD_and]
  case xor =>
    refine ⟨_, exec_xor s x y, fun k => ?xorBits, fun _ => s.finishMove_reg_other _, s.finishMove_frame _ x⟩
    rw [State.finishMove_reg_same, BitVec.getLsbD_xor]

/-- Settles O29: the sum wraps as the library's does, and the carry compares the exact sum. -/
theorem addSetsCarry : Obligations.AddSetsCarry := by
  unfold Obligations.AddSetsCarry
  refine fun s x y => ⟨_, exec_addVxVy s x y, fun hx => ?sum, ?carry, fun _ => s.finishFlag_reg_other _ _,
    s.finishFlag_frame _ _ x⟩
  case sum => rw [State.finishFlag_reg_result _ _ _ hx, BitVec.toNat_add]
  case carry => rw [State.finishFlag_reg_flag, flagByte_carryFlag]

/-- Settles O30: one subtraction with its strict comparison, in the two orders of the operands. -/
theorem subtractionsSetStrictFlag : Obligations.SubtractionsSetStrictFlag := by
  unfold Obligations.SubtractionsSetStrictFlag
  refine fun s x y => ⟨⟨_, exec_sub s x y, fun hx => ?difference, ?greater, fun _ => s.finishFlag_reg_other _ _,
      s.finishFlag_frame _ _ x⟩,
    ⟨_, exec_subn s x y, fun hx => ?reversed, ?less, fun _ => s.finishFlag_reg_other _ _, s.finishFlag_frame _ _ x⟩⟩
  case difference | reversed => rw [State.finishFlag_reg_result _ _ _ hx, byte_sub_toNat]
  case greater | less => rw [State.finishFlag_reg_flag, flagByte_greaterFlag]

/-- Settles O31: a shift by one is a halving or a doubling, and the flag is the bit at the end that the shift drops. -/
theorem shiftsMoveOneBitOut : Obligations.ShiftsMoveOneBitOut := by
  unfold Obligations.ShiftsMoveOneBitOut
  refine fun s x y => ⟨⟨_, exec_shr s x y, fun hx => ?half, ?lowBit, fun _ => s.finishFlag_reg_other _ _,
      s.finishFlag_frame _ _ x⟩,
    ⟨_, exec_shl s x y, fun hx => ?double, ?highBit, fun _ => s.finishFlag_reg_other _ _, s.finishFlag_frame _ _ x⟩⟩
  case half => rw [State.finishFlag_reg_result _ _ _ hx, byte_half_toNat]
  case lowBit => rw [State.finishFlag_reg_flag, flagByte_shiftedOutRight_toNat]
  case double => rw [State.finishFlag_reg_result _ _ _ hx, byte_double_toNat]
  case highBit => rw [State.finishFlag_reg_flag, flagByte_shiftedOutLeft_toNat]

end Sys2Proof.Machine
end

section
/-!
PROOF. The index register and the memory transfers (spec/43_index_memory.md R110 to R116): the values written to I as numbers,
what a run of stored bytes reads back as, and each transfer on the two sides of its bound.
-/

namespace Sys2Proof.Machine

/-! ### The writers of I (R111 to R113) -/

section Index

variable (s : State) (x : Reg) (nnn : Addr12) (v : Word) (b : Byte)

theorem exec_ldINnn : exec (.ldINnn nnn) s = .next (s.finishIndex (zextAddr nnn)) := rfl

theorem exec_addIVx : exec (.addIVx x) s = .next (s.finishIndex (s.i + zextByte (s.reg x))) := rfl

/-- The address of the glyph that a byte names (R113). -/
def glyphAddress (b : Byte) : Word := Config.fontBase + BitVec.ofNat 16 (Config.glyphBytes * (lowNibble b).val)

theorem exec_ldFVx : exec (.ldFVx x) s = .next (s.finishIndex (glyphAddress (s.reg x))) := rfl

@[simp] theorem State.finishIndex_i : (s.finishIndex v).i = v := rfl

theorem State.finishIndex_frame : s.finishIndex v = { s with i := (s.finishIndex v).i, pc := s.pc + 2 } := rfl

theorem add_zextByte_toNat : (v + zextByte b).toNat = (v.toNat + b.toNat) % 65536 := by
  rw [BitVec.toNat_add, zextByte_toNat]

theorem lowNibble_val : (lowNibble b).val = b.toNat % 16 := by
  have bits : (b.extractLsb' 0 4).toNat = b.toNat / 2 ^ 0 % 2 ^ 4 := extract_toNat 0 4 b
  rw [pow_zero, Nat.div_one] at bits
  exact bits

/-- FONT_BASE is 0, and the last glyph starts at 75, so nothing wraps. -/
theorem glyphAddress_toNat : (glyphAddress b).toNat = 5 * (b.toNat % 16) := by
  have start : (glyphAddress b).toNat = 5 * (lowNibble b).val % 65536 := by
    rw [glyphAddress, Config.fontBase, Config.glyphBytes, zero_add, BitVec.toNat_ofNat]
  rw [start, lowNibble_val]
  omega

end Index

/-- Settles O33: each of the three ends with I alone written, and the value is exact as a number. -/
theorem indexResults : Obligations.IndexResults := by
  unfold Obligations.IndexResults
  refine fun s x nnn => ⟨?address, ?sum, ?glyph⟩
  case address => exact ⟨_, exec_ldINnn s nnn, zextAddr_toNat nnn, s.finishIndex_frame _⟩
  case sum => exact ⟨_, exec_addIVx s x, add_zextByte_toNat s.i (s.reg x), s.finishIndex_frame _⟩
  case glyph => exact ⟨_, exec_ldFVx s x, glyphAddress_toNat (s.reg x), s.finishIndex_frame _⟩

/-! ### Stored bytes read back (R37, R39) -/

section Stored

variable (s : State) {a k : Nat} {bs : List Byte}

theorem State.storeBytes_byteAt_inside (h : k < bs.length) : (s.storeBytes a bs).byteAt (a + k) = bs.getD k 0 := by
  have inRange : a ≤ a + k ∧ a + k < a + bs.length := by omega
  rw [State.storeBytes_byteAt, Memory.read_writeAll, if_pos inRange, Nat.add_sub_cancel_left]

theorem State.storeBytes_byteAt_outside (h : ¬(a ≤ k ∧ k < a + bs.length)) :
    (s.storeBytes a bs).byteAt k = s.byteAt k := by
  rw [State.storeBytes_byteAt, Memory.read_writeAll, if_neg h, State.byteAt]

end Stored

section Digits

variable (b : Byte)

theorem decimalDigits_hundreds : ((decimalDigits b).getD 0 0).toNat = b.toNat / 100 := by
  change b.toNat / 100 % 256 = _
  have := b.isLt
  omega

theorem decimalDigits_tens : ((decimalDigits b).getD 1 0).toNat = b.toNat / 10 % 10 := by
  change b.toNat / 10 % 10 % 256 = _
  omega

theorem decimalDigits_units : ((decimalDigits b).getD 2 0).toNat = b.toNat % 10 := by
  change b.toNat % 10 % 256 = _
  omega

end Digits

/-! ### The transfers inside memory (R110, R114 to R116) -/

section Transfers

variable (s : State) (x : Reg)

theorem exec_ldBVx_inside (h : s.i.toNat + 2 < 4096) :
    exec (.ldBVx x) s = .next (s.storeBytes s.i.toNat (decimalDigits (s.reg x))).advance := by
  rw [exec_ldBVx, transfer_inside s _ _ h]

theorem exec_ldMemVx_inside (h : s.i.toNat + x.val < 4096) :
    exec (.ldMemVx x) s = .next (s.storeBytes s.i.toNat (s.regsUpTo x)).advance := by
  rw [exec_ldMemVx, transfer_inside s _ _ h]

theorem exec_ldVxMem_inside (h : s.i.toNat + x.val < 4096) :
    exec (.ldVxMem x) s = .next (s.loadRegsUpTo x).advance := by
  rw [exec_ldVxMem, transfer_inside s _ _ h]

theorem State.storeBytes_advance_frame (a : Nat) (bs : List Byte) :
    (s.storeBytes a bs).advance = { s with mem := (s.storeBytes a bs).advance.mem, pc := s.pc + 2 } := rfl

theorem State.loadRegsUpTo_advance_frame :
    (s.loadRegsUpTo x).advance = { s with v := (s.loadRegsUpTo x).advance.v, pc := s.pc + 2 } := rfl

end Transfers

/-- Settles O34: the digits are stored as a list of three bytes, read back one at a time. -/
theorem decimalDigitsAreStored : Obligations.DecimalDigitsAreStored := by
  unfold Obligations.DecimalDigitsAreStored
  refine fun s x => ⟨fun h => ?stores, fun h => ?faults⟩
  case stores =>
    have digit (k : Nat) (hk : k < 3) : (s.storeBytes s.i.toNat (decimalDigits (s.reg x))).advance.byteAt (s.i.toNat + k) =
        (decimalDigits (s.reg x)).getD k 0 := s.storeBytes_byteAt_inside hk
    refine ⟨_, exec_ldBVx_inside s x h, ?hundreds, ?tens, ?units, fun a ha => ?others, s.storeBytes_advance_frame _ _⟩
    case hundreds => exact (congrArg BitVec.toNat (digit 0 (by decide))).trans (decimalDigits_hundreds _)
    case tens => rw [digit 1 (by decide), decimalDigits_tens]
    case units => rw [digit 2 (by decide), decimalDigits_units]
    case others =>
      have outside : ¬(s.i.toNat ≤ a ∧ a < s.i.toNat + (decimalDigits (s.reg x)).length) := by
        rw [decimalDigits_length]
        omega
      exact s.storeBytes_byteAt_outside outside
  case faults => exact (exec_ldBVx s x).trans (transfer_outside s _ _ h)

/-- Settles O35: the registers are stored as the list of V[0] to V[x], whose entry k is V[k]. -/
theorem registerRangeIsStored : Obligations.RegisterRangeIsStored := by
  unfold Obligations.RegisterRangeIsStored
  refine fun s x => ⟨fun h => ?stores, fun h => ?faults⟩
  case stores =>
    refine ⟨_, exec_ldMemVx_inside s x h, fun k hk => ?register, fun a ha => ?others, s.storeBytes_advance_frame _ _⟩
    case register =>
      have listed : k.val < (s.regsUpTo x).length := by
        rw [State.regsUpTo_length]
        exact Nat.lt_succ_of_le hk
      rw [State.advance_byteAt, State.storeBytes_byteAt_inside s listed, State.regsUpTo_getD s hk]
    case others =>
      have outside : ¬(s.i.toNat ≤ a ∧ a < s.i.toNat + (s.regsUpTo x).length) := by
        rw [State.regsUpTo_length]
        omega
      exact s.storeBytes_byteAt_outside outside
  case faults => exact (exec_ldMemVx s x).trans (transfer_outside s _ _ h)

/-- Settles O36: the load is said register by register, V[0] to V[x] from memory and the rest as they were. -/
theorem registerRangeIsLoaded : Obligations.RegisterRangeIsLoaded := by
  unfold Obligations.RegisterRangeIsLoaded
  refine fun s x => ⟨fun h => ?loads, fun h => ?faults⟩
  case loads =>
    refine ⟨_, exec_ldVxMem_inside s x h, fun k hk => ?register, fun k hk => ?above, s.loadRegsUpTo_advance_frame x⟩
    case register => rw [State.advance_reg, State.loadRegsUpTo_reg, if_pos hk]
    case above => rw [State.advance_reg, State.loadRegsUpTo_reg, if_neg (not_le.mpr hk)]
  case faults => exact (exec_ldVxMem s x).trans (transfer_outside s _ _ h)

end Sys2Proof.Machine
end

section
/-!
PROOF. The display (spec/44_display.md R121, R122): the cleared screen, and a draw that does not fault read through the
accessors, in terms of the sprite bit that lands on each pixel.
-/

namespace Sys2Proof.Machine

section Clear

variable (s : State)

theorem exec_cls : exec .cls s = .next { s with fb := Vector.replicate 32 0 }.advance := rfl

/-- The framebuffer that `00E0` writes is the one at reset. -/
theorem pixelOf_blank (row : Fin 32) (col : Fin 64) : pixelOf (Vector.replicate 32 0) row col = false :=
  State.reset_pixel row col

theorem State.clear_advance_frame (fb : Framebuffer) :
    { s with fb := fb }.advance = { s with fb := { s with fb := fb }.advance.fb, pc := s.pc + 2 } := rfl

end Clear

/-- Settles O41: the framebuffer becomes the blank one, and PC moves on. -/
theorem clearTurnsEveryPixelOff : Obligations.ClearTurnsEveryPixelOff := by
  unfold Obligations.ClearTurnsEveryPixelOff
  exact fun s => ⟨_, exec_cls s, pixelOf_blank, s.clear_advance_frame _⟩

/-! ### A draw that does not fault (R122) -/

section Draw

variable (s : State) (x y : Reg) (n : Height)

/-- The bit of the sprite at I that `DXYN` lands on a pixel, if any. -/
def State.landingBit (row : Fin 32) (col : Fin 64) : Bool :=
  spriteBitAt (s.reg x).toNat (s.reg y).toNat (s.spriteBytes n) row col

/-- A sprite bit 1 lands on a pixel that is on. -/
def State.Collides : Prop := ∃ row col, s.pixel row col = true ∧ s.landingBit x y n row col = true

theorem State.not_collides_iff :
    ¬ s.Collides x y n ↔ ∀ row col, s.pixel row col = true → s.landingBit x y n row col = false := by
  simp only [State.Collides, not_exists, not_and, Bool.not_eq_true]

/-- A sprite has at most 15 rows, so the closed form of the draw applies. -/
theorem State.finishDraw_pixel (row : Fin 32) (col : Fin 64) :
    (s.finishDraw x y n).pixel row col = (s.pixel row col ^^ s.landingBit x y n row col) :=
  (drawSprite_spec s.fb (s.reg x).toNat (s.reg y).toNat (s.spriteBytes n) (s.spriteBytes_length n)).1 row col

/-- The draw's `hit`. -/
theorem State.drawSprite_hit_iff :
    (drawSprite s.fb (s.reg x).toNat (s.reg y).toNat (s.spriteBytes n)).2 = true ↔ s.Collides x y n :=
  (drawSprite_spec s.fb (s.reg x).toNat (s.reg y).toNat (s.spriteBytes n) (s.spriteBytes_length n)).2

theorem State.finishDraw_reg_flag : (s.finishDraw x y n).reg flagReg =
    flagByte (drawSprite s.fb (s.reg x).toNat (s.reg y).toNat (s.spriteBytes n)).2 := by
  rw [State.finishDraw, State.advance_reg, State.setReg_reg_same]

theorem State.finishDraw_reg_flag_of_collides (h : s.Collides x y n) : (s.finishDraw x y n).reg flagReg = 1 := by
  rw [State.finishDraw_reg_flag, (s.drawSprite_hit_iff x y n).mpr h, flagByte, if_pos rfl]

theorem State.finishDraw_reg_flag_of_not_collides (h : ¬ s.Collides x y n) :
    (s.finishDraw x y n).reg flagReg = 0 := by
  rw [State.finishDraw_reg_flag, flagByte, if_neg (mt (s.drawSprite_hit_iff x y n).mp h)]

theorem State.finishDraw_reg_other {r : Reg} (h : r ≠ flagReg) : (s.finishDraw x y n).reg r = s.reg r := by
  rw [State.finishDraw, State.advance_reg, State.setReg_reg_other _ _ h]
  rfl

theorem State.finishDraw_frame : s.finishDraw x y n =
    { s with v := (s.finishDraw x y n).v, fb := (s.finishDraw x y n).fb, pc := s.pc + 2 } := rfl

end Draw

/-- Settles O42: inside memory, or with no byte to read, the draw ends as `finishDraw` does; otherwise its bound check
raises. -/
theorem drawXorsTheSprite : Obligations.DrawXorsTheSprite := by
  unfold Obligations.DrawXorsTheSprite
  refine fun s x y n => ⟨fun h => ?draws, fun hn h => ?faults⟩
  case draws =>
    have inside : 0 < n.val → s.i.toNat + (n.val - 1) < 4096 := by omega
    exact ⟨s.finishDraw x y n, execDrw_inside s x y n inside, s.finishDraw_pixel x y n,
      s.finishDraw_reg_flag_of_collides x y n,
      fun noHit => s.finishDraw_reg_flag_of_not_collides x y n ((s.not_collides_iff x y n).mpr noHit),
      fun _ => s.finishDraw_reg_other x y n, s.finishDraw_frame x y n⟩
  case faults =>
    have outside : 4096 ≤ s.i.toNat + (n.val - 1) := by omega
    exact execDrw_outside s x y n hn outside

end Sys2Proof.Machine
end

section
/-!
PROOF. Keypad and timers (spec/45_keypad_timers.md R131 to R136): the two key skips by the law of `State.skipIf`, the key wait
by the answer of `firstPressed`, and the timer transfers.
-/

namespace Sys2Proof.Machine

section Keypad

variable (s : State) (x : Reg) {k : Reg}

theorem exec_skp : exec (.skp x) s = .next (s.skipIf (s.pressed (lowNibble (s.reg x)))) := rfl

theorem exec_sknp : exec (.sknp x) s = .next (s.skipIf (!s.pressed (lowNibble (s.reg x)))) := rfl

theorem exec_ldVxK_of_firstPressed (h : s.firstPressed = some k) :
    exec (.ldVxK x) s = .next (s.finishMove x (BitVec.ofNat 8 k.val)) := by
  change execLdVxK x s = _
  rw [execLdVxK, h]
  rfl

theorem exec_ldVxK_of_none (h : s.firstPressed = none) : exec (.ldVxK x) s = .next s := by
  change execLdVxK x s = _
  rw [execLdVxK, h]

/-- A key's number fits the byte that R134 stores. -/
theorem keyNumber_toNat (k : Reg) : (BitVec.ofNat 8 k.val).toNat = k.val :=
  (BitVec.toNat_ofNat k.val 8).trans (Nat.mod_eq_of_lt (k.isLt.trans (by decide)))

end Keypad

/-- Settles O44: both skips test the key that the low nibble names, for being pressed and for not being pressed. -/
theorem keySkips : Obligations.KeySkips := by
  unfold Obligations.KeySkips
  intro s x k hk
  have named : lowNibble (s.reg x) = k := Fin.ext ((lowNibble_val (s.reg x)).trans hk)
  refine ⟨?skp, ?sknp⟩
  case skp => rw [exec_skp, named, s.skipIf_of_iff Iff.rfl]
  case sknp => rw [exec_sknp, named, s.skipIf_of_iff (Bool.not_eq_true' _).to_iff]

/-- Settles O45: the two answers of `firstPressed`. -/
theorem keyWaitTakesTheLeastKey : Obligations.KeyWaitTakesTheLeastKey := by
  unfold Obligations.KeyWaitTakesTheLeastKey
  refine ⟨fun s x k hk least => ?takes, fun s x noKey => ?waits⟩
  case takes =>
    refine ⟨_, exec_ldVxK_of_firstPressed s x (s.firstPressed_eq_some hk least), ?number,
      fun _ => s.finishMove_reg_other _, s.finishMove_frame _ x⟩
    rw [State.finishMove_reg_same, keyNumber_toNat]
  case waits => exact exec_ldVxK_of_none s x (s.firstPressed_eq_none noKey)

section Timers

variable (s : State) (x : Reg)

theorem exec_ldVxDt : exec (.ldVxDt x) s = .next (s.finishMove x s.dt) := rfl

theorem exec_ldDtVx : exec (.ldDtVx x) s = .next { s with dt := s.reg x, pc := s.pc + 2 } := rfl

theorem exec_ldStVx : exec (.ldStVx x) s = .next { s with st := s.reg x, pc := s.pc + 2 } := rfl

end Timers

/-- Settles O47: the read of DT ends with the result alone, and each write of a timer is one field beside PC. -/
theorem timerTransfers : Obligations.TimerTransfers := by
  unfold Obligations.TimerTransfers
  refine fun s x => ⟨?readDelay, exec_ldDtVx s x, exec_ldStVx s x⟩
  case readDelay =>
    exact ⟨_, exec_ldVxDt s x, s.finishMove_reg_same _ x, fun _ => s.finishMove_reg_other _, s.finishMove_frame _ x⟩

end Sys2Proof.Machine
end

section
/-!
PROOF. The operations of the outside agents (spec/46_host_operations.md R141, R143 to R145): an accepted load as stored bytes
over the reset state, the timers after any number of ticks, and the flat index of a pixel.
-/

namespace Sys2Proof.Machine

section Load

variable (s : State) {rom : List Byte} {k : Nat}

@[simp] theorem construct_byteAt (a : Nat) : (construct s).byteAt a = State.reset.byteAt a := rfl

theorem State.storeBytes_frame (a : Nat) (bs : List Byte) :
    s.storeBytes a bs = { s with mem := (s.storeBytes a bs).mem } := rfl

/-- The ROM byte itself: no default is read. -/
theorem construct_storeBytes_byteAt_rom (hk : k < rom.length) :
    ((construct s).storeBytes 0x200 rom).byteAt (0x200 + k) = rom[k] :=
  ((construct s).storeBytes_byteAt_inside hk).trans (List.getD_eq_getElem rom 0 hk)

theorem construct_storeBytes_byteAt_outside (hk : ¬(0x200 ≤ k ∧ k < 0x200 + rom.length)) :
    ((construct s).storeBytes 0x200 rom).byteAt k = State.reset.byteAt k :=
  ((construct s).storeBytes_byteAt_outside hk).trans (construct_byteAt s k)

end Load

/-- Settles O3: an accepted load is one store over the reset state, read back inside and outside the ROM. -/
theorem loadResetsThenCopiesOrRefuses : Obligations.LoadResetsThenCopiesOrRefuses := by
  unfold Obligations.LoadResetsThenCopiesOrRefuses
  refine fun rom s => ⟨fun fits => ?accepted, load_of_too_large s⟩
  case accepted =>
    rw [load_of_fits s fits]
    exact ⟨rfl, (construct s).storeBytes_frame 0x200 rom, fun _ => construct_storeBytes_byteAt_rom s,
      fun _ => construct_storeBytes_byteAt_outside s⟩

section Ticks

variable (s : State)

theorem tick_dt_toNat : (tick s).dt.toNat = s.dt.toNat - 1 := countDown_toNat s.dt

theorem tick_st_toNat : (tick s).st.toNat = s.st.toNat - 1 := countDown_toNat s.st

theorem tick_iterate_dt_toNat (k : Nat) : (tick^[k] s).dt.toNat = s.dt.toNat - k := by
  induction k with
  | zero => rfl
  | succ k ih => rw [Function.iterate_succ_apply', tick_dt_toNat, ih, Nat.sub_sub]

theorem tick_iterate_st_toNat (k : Nat) : (tick^[k] s).st.toNat = s.st.toNat - k := by
  induction k with
  | zero => rfl
  | succ k ih => rw [Function.iterate_succ_apply', tick_st_toNat, ih, Nat.sub_sub]

theorem tick_iterate_frame (k : Nat) : tick^[k] s = { s with dt := (tick^[k] s).dt, st := (tick^[k] s).st } := by
  induction k with
  | zero => rfl
  | succ k ih =>
    rw [Function.iterate_succ_apply']
    exact congrArg tick ih

end Ticks

/-- Settles O5, each clause by induction on the number of ticks. -/
theorem ticksCountDownToZero : Obligations.TicksCountDownToZero := by
  unfold Obligations.TicksCountDownToZero
  exact fun k s => ⟨tick_iterate_dt_toNat s k, tick_iterate_st_toNat s k, tick_iterate_frame s k⟩

section SnapshotAndPicture

variable (s : State) (keys : Vector Bool 16)

@[simp] theorem setKeys_pressed (k : Reg) : (setKeys keys s).pressed k = keys.get k := rfl

theorem setKeys_frame : setKeys keys s = { s with key := (setKeys keys s).key } := rfl

theorem getFramebuffer_get (k : Fin 2048) :
    (getFramebuffer s).get k = s.pixel ⟨k.val / 64, by omega⟩ ⟨k.val % 64, by omega⟩ := by
  rw [getFramebuffer, Vector.get_eq_getElem, Vector.getElem_ofFn]

theorem perform_getFramebuffer : perform .getFramebuffer s = .next s := rfl

end SnapshotAndPicture

/-- Settles O4: the vector becomes the key flags, the one field written. -/
theorem setKeysReplacesTheSnapshot : Obligations.SetKeysReplacesTheSnapshot := by
  unfold Obligations.SetKeysReplacesTheSnapshot
  exact fun keys s => ⟨setKeys_pressed s keys, setKeys_frame s keys⟩

/-- Settles O6: row and column are quotient and remainder of the flat index by 64. -/
theorem framebufferIsRowMajor : Obligations.FramebufferIsRowMajor := by
  unfold Obligations.FramebufferIsRowMajor
  refine fun s row col => ⟨?pixel, perform_getFramebuffer s⟩
  case pixel =>
    have quotient : (row.val * 64 + col.val) / 64 = row.val := by omega
    have remainder : (row.val * 64 + col.val) % 64 = col.val := by omega
    exact (getFramebuffer_get s _).trans (congrArg₂ s.pixel (Fin.ext quotient) (Fin.ext remainder))

end Sys2Proof.Machine
end

section
/-!
PROOF. Faults (spec/60_exceptions.md R151, R155): the rows of the execute phase read backwards from `faultOf`, what an
instruction does to FAULT on each side of its row's condition, and the step that records a fault.
-/

namespace Sys2Proof.Machine

section Execute

variable {s t : State} {i : Instr} {k : Fault}

/-- The three execute rows of the table R151; the third one's accesses are put as O39 puts them (R36). -/
theorem faultOf_eq_some (h : faultOf s i = some k) :
    (i = .ret ∧ s.sp = 0 ∧ k = .stackUnderflow) ∨
    (∃ nnn, i = .call nnn ∧ s.sp = 16 ∧ k = .stackOverflow) ∨
    (k = .outOfBounds ∧ ∃ (x y : Reg) (n : Height),
      (i = .ldBVx x ∧ 4096 ≤ s.i.toNat + 2) ∨ ((i = .ldMemVx x ∨ i = .ldVxMem x) ∧ 4096 ≤ s.i.toNat + x.val) ∨
        (i = .drw x y n ∧ 0 < n.val ∧ 4096 ≤ s.i.toNat + (n.val - 1))) := by
  cases i with
  | ret =>
    obtain ⟨empty, ⟨⟩⟩ := Option.ite_none_right_eq_some.mp h
    exact .inl ⟨rfl, empty, rfl⟩
  | call nnn =>
    obtain ⟨full, ⟨⟩⟩ := Option.ite_none_right_eq_some.mp h
    exact .inr (.inl ⟨nnn, rfl, full, rfl⟩)
  | drw x y n =>
    obtain ⟨⟨height, bound⟩, ⟨⟩⟩ := Option.ite_none_right_eq_some.mp h
    have lastByte : 4096 ≤ s.i.toNat + (n.val - 1) := by omega
    exact .inr (.inr ⟨rfl, x, y, n, .inr (.inr ⟨rfl, height, lastByte⟩)⟩)
  | ldBVx x =>
    obtain ⟨bound, ⟨⟩⟩ := Option.ite_none_right_eq_some.mp h
    exact .inr (.inr ⟨rfl, x, 0, 0, .inl ⟨rfl, bound⟩⟩)
  | ldMemVx x =>
    obtain ⟨bound, ⟨⟩⟩ := Option.ite_none_right_eq_some.mp h
    exact .inr (.inr ⟨rfl, x, 0, 0, .inr (.inl ⟨.inl rfl, bound⟩)⟩)
  | ldVxMem x =>
    obtain ⟨bound, ⟨⟩⟩ := Option.ite_none_right_eq_some.mp h
    exact .inr (.inr ⟨rfl, x, 0, 0, .inr (.inl ⟨.inr rfl, bound⟩)⟩)
  | _ => cases h

/-- Under its row's condition an instruction raises, by the statement about its own fault (O21, O22, O39). -/
theorem exec_of_faultOf_some (h : faultOf s i = some k) : exec i s = raise k (encode i) s := by
  obtain ⟨rfl, empty, rfl⟩ | ⟨nnn, rfl, full, rfl⟩ | ⟨rfl, x, y, n, access⟩ := faultOf_eq_some h
  · exact retPopsOrUnderflows.2 s (congrArg Fin.val empty)
  · exact callPushesOrOverflows.2 s nnn (congrArg Fin.val full)
  · exact dataOutOfBoundsFaults.1 s i x y n access

/-- Reads the condition of a row off `faultOf` when no fault is due; the other side is `Option.ite_none_right_eq_some`. -/
theorem not_of_ite_some_eq_none {p : Prop} [Decidable p] (h : (if p then some k else none) = none) : ¬ p :=
  fun hp => nomatch (if_pos hp).symm.trans h

/-- Outside its row's condition an instruction completes. Beside the six with a row, only the key wait has two arms; every
other instruction is one update that leaves FAULT out. -/
theorem exec_of_faultOf_none (h : faultOf s i = none) : ∃ t, exec i s = .next t ∧ t.fault = s.fault := by
  cases i with
  | ret =>
    have used : s.sp.val ≠ 0 := fun e => not_of_ite_some_eq_none h (Fin.ext e)
    have top : s.sp.val = s.sp.val - 1 + 1 := by omega
    exact ⟨_, exec_ret_of_pop (s.pop_of_entry ⟨s.sp.val - 1, by omega⟩ top), rfl⟩
  | call nnn =>
    have notFull : s.sp.val ≠ 16 := fun e => not_of_ite_some_eq_none h (Fin.ext e)
    have room : s.sp.val < 16 := by omega
    exact ⟨_, exec_call_of_push nnn (s.push_of_room s.npc room), rfl⟩
  | drw x y n =>
    have noFault : ¬(0 < n.val ∧ 4096 ≤ s.i.toNat + n.val - 1) := not_of_ite_some_eq_none h
    have inside : 0 < n.val → s.i.toNat + (n.val - 1) < 4096 := by omega
    exact ⟨_, execDrw_inside s x y n inside, s.finishDraw_fault x y n⟩
  | ldBVx x => exact ⟨_, exec_ldBVx_inside s x (not_le.mp (not_of_ite_some_eq_none h)), rfl⟩
  | ldMemVx x => exact ⟨_, exec_ldMemVx_inside s x (not_le.mp (not_of_ite_some_eq_none h)), rfl⟩
  | ldVxMem x => exact ⟨_, exec_ldVxMem_inside s x (not_le.mp (not_of_ite_some_eq_none h)), rfl⟩
  | ldVxK x =>
    cases hk : s.firstPressed with
    | none => exact ⟨s, exec_ldVxK_of_none s x hk, rfl⟩
    | some key => exact ⟨_, exec_ldVxK_of_firstPressed s x hk, rfl⟩
  | _ => exact ⟨_, rfl, rfl⟩

/-- SAY ONCE WHAT AN INSTRUCTION DOES TO FAULT: nothing, or it raises under its row's condition. -/
theorem exec_fault_cases (h : exec i s = .next t) :
    (faultOf s i = none ∧ t.fault = s.fault) ∨
    ∃ k, faultOf s i = some k ∧ t = { s with fault := { kind := some k, pc := s.pc, opcode := encode i } } := by
  cases hk : faultOf s i with
  | none =>
    obtain ⟨t', completes, kept⟩ := exec_of_faultOf_none hk
    cases h.symm.trans completes
    exact .inl ⟨rfl, kept⟩
  | some k => exact .inr ⟨k, rfl, Host.Outcome.next.inj (h.symm.trans (exec_of_faultOf_some hk))⟩

end Execute

/-- Settles O18: the codes by their definition, the fetch and decode rows by the two fault branches of a step, and the
execute rows by the two sides of `faultOf`. -/
theorem faultsAreExactlyAsTabled : Obligations.FaultsAreExactlyAsTabled := by
  unfold Obligations.FaultsAreExactlyAsTabled
  refine ⟨⟨rfl, rfl, rfl, rfl, rfl, construct_fault⟩, fun s running => ?fetchAndDecode, fun i s => ?execute⟩
  case fetchAndDecode => exact ⟨step_of_outside running, step_of_unknown running⟩
  case execute => exact ⟨fun _ => exec_of_faultOf_some, exec_of_faultOf_none⟩

/-- Settles O17, one phase after another. A decoded instruction that records a fault is under its row's condition, and its
encoding is the word that was fetched. -/
theorem faultingStepChangesOnlyFault : Obligations.FaultingStepChangesOnlyFault := by
  unfold Obligations.FaultingStepChangesOnlyFault
  intro s t running hstep faulted
  obtain ⟨halted, -⟩ | ⟨-, outside, rfl⟩ | ⟨-, inside, hd, rfl⟩ | ⟨-, inside, i, hd, hexec⟩ := step_cases s hstep
  · exact absurd running halted
  · exact ⟨rfl, rfl, fun _ => ⟨rfl, rfl⟩, fun inside => absurd outside (not_le.mpr inside)⟩
  · exact ⟨rfl, rfl, fun outside => absurd outside (not_le.mpr inside),
      fun _ => ⟨rfl, fun _ => rfl, fun i hi => nomatch hd.symm.trans hi⟩⟩
  · obtain ⟨-, kept⟩ | ⟨k, hk, rfl⟩ := exec_fault_cases hexec
    · exact absurd (kept ▸ running) faulted
    · have word : encode i = s.fetchedWord := encode_of_decodeWord hd
      have decoded : decodeWord (encode i) = some i := word ▸ hd
      refine ⟨rfl, rfl, fun outside => absurd outside (not_le.mpr inside),
        fun _ => ⟨word, fun hn => ?legal, fun j hj => ?row⟩⟩
      case legal => exact nomatch decoded.symm.trans hn
      case row =>
        obtain rfl : i = j := Option.some.inj (decoded.symm.trans hj)
        exact hk.symm

end Sys2Proof.Machine
end

section
/-!
PROOF. The encoding both ways (spec/30_encoding.md R50 to R57): the decoder reads back the fields that each format puts
together, and family by family the words that it refuses.
-/

namespace Sys2Proof

/-! ### Encoding, then decoding (R52, R55) -/

section FormatFields

variable (f : BitVec 4) (x y n : Fin 16) (nn : Byte) (nnn : Addr12)

@[simp] theorem famOf_wordNNN : famOf (wordNNN f nnn) = f.toFin := (wordNNN_fields f nnn).1

@[simp] theorem nnnOf_wordNNN : nnnOf (wordNNN f nnn) = nnn := (wordNNN_fields f nnn).2

@[simp] theorem famOf_wordXNN : famOf (wordXNN f x nn) = f.toFin := (wordXNN_fields f x nn).1

@[simp] theorem xOf_wordXNN : xOf (wordXNN f x nn) = x := (wordXNN_fields f x nn).2.1

@[simp] theorem nnOf_wordXNN : nnOf (wordXNN f x nn) = nn := (wordXNN_fields f x nn).2.2

@[simp] theorem famOf_wordXYN : famOf (wordXYN f x y n) = f.toFin := (wordXYN_fields f x y n).1

@[simp] theorem xOf_wordXYN : xOf (wordXYN f x y n) = x := (wordXYN_fields f x y n).2.1

@[simp] theorem yOf_wordXYN : yOf (wordXYN f x y n) = y := (wordXYN_fields f x y n).2.2.1

@[simp] theorem nOf_wordXYN : nOf (wordXYN f x y n) = n := (wordXYN_fields f x y n).2.2.2

end FormatFields

/-- Format by format: the family, and in families 5, 8, 9, E and F the selector, pick the branch that names the instruction. -/
theorem decodeWord_encode (i : Instr) : decodeWord (encode i) = some i := by
  cases i with
  | cls | ret => decide
  | jp | call | ldINnn | jpV0 => simp [encode, decodeWord]
  | seVxNn | sneVxNn | ldVxNn | addVxNn | rnd => simp [encode, decodeWord]
  | seVxVy | sneVxVy | drw => simp [encode, decodeWord]
  | ldVxVy | or | and | xor | addVxVy | sub | shr | subn | shl => simp [encode, decodeWord, decodeAlu]
  | skp | sknp => simp [encode, decodeWord, decodeKey]
  | ldVxDt | ldVxK | ldDtVx | ldStVx | addIVx | ldFVx | ldBVx | ldMemVx | ldVxMem =>
    simp [encode, decodeWord, decodeMisc]

theorem decode_of_decodeWord {hi lo : Byte} {i : Instr} (rest : List Byte) (h : decodeWord (wordOfBytes hi lo) = some i) :
    decode (hi :: lo :: rest) = .ok (i, rest) := by
  rw [decode, h]

theorem decodeWord_of_decode {hi lo : Byte} {i : Instr} {bytes rest : List Byte}
    (h : decode (hi :: lo :: bytes) = .ok (i, rest)) : decodeWord (wordOfBytes hi lo) = some i := by
  rw [decode] at h
  split at h
  next hd => cases h; exact hd
  next => cases h

/-- Settles O8: the two bytes make the word again, and the word decodes to its instruction. -/
theorem decodeOfEncode : Obligations.DecodeOfEncode := by
  unfold Obligations.DecodeOfEncode
  intro i rest
  refine decode_of_decodeWord rest ?_
  rw [wordOfBytes_of_word, decodeWord_encode]

/-- Settles O9: the decoder's branches fix every bit of the word that is no operand. -/
theorem encodeOfDecode : Obligations.EncodeOfDecode := by
  unfold Obligations.EncodeOfDecode
  exact fun _ _ => encode_of_decodeWord

/-- Settles O12, by running the decoder on the twelve words. -/
theorem specWordsDecode : Obligations.SpecWordsDecode := by
  unfold Obligations.SpecWordsDecode
  decide

/-! ### The illegal words (R57) -/

section Illegal

variable (w : Word)

theorem decodeAlu_eq_none_iff : decodeAlu w = none ↔ w.toNat % 16 ∈ [0x8, 0x9, 0xA, 0xB, 0xC, 0xD, 0xF] := by
  have small : w.toNat % 16 < 16 := Nat.mod_lt _ (by decide)
  unfold decodeAlu
  rw [nOf_val]
  generalize w.toNat % 16 = n at small ⊢
  interval_cases n <;> simp

theorem decodeKey_eq_none_iff : decodeKey w = none ↔ w.toNat % 256 ∉ [0x9E, 0xA1] := by
  unfold decodeKey
  rw [nnOf_toNat]
  split <;> simp_all

theorem decodeMisc_eq_none_iff :
    decodeMisc w = none ↔ w.toNat % 256 ∉ [0x07, 0x0A, 0x15, 0x18, 0x1E, 0x29, 0x33, 0x55, 0x65] := by
  unfold decodeMisc
  rw [nnOf_toNat]
  split <;> simp_all

theorem nOf_eq_zero_iff : nOf w = 0 ↔ w.toNat % 16 = 0 := by
  rw [Fin.ext_iff, nOf_val, Fin.val_zero]

end Illegal

/-- Settles O10, family by family: families 0, 5, 8, 9, E and F check their selector and every other family is whole. -/
theorem illegalWordsAreTheSixClasses : Obligations.IllegalWordsAreTheSixClasses := by
  unfold Obligations.IllegalWordsAreTheSixClasses
  intro w
  have word (p : Word) : w = p ↔ w.toNat = p.toNat := BitVec.toNat_inj.symm
  have bound : w.toNat / 4096 < 16 := famOf_val w ▸ (famOf w).isLt
  unfold decodeWord
  rw [famOf_val]
  split
  next family => simp [family, word, ite_eq_iff]
  next family => simp [family]
  next family => simp [family]
  next family => simp [family]
  next family => simp [family]
  next family => simp [family, nOf_eq_zero_iff]
  next family => simp [family]
  next family => simp [family]
  next family => simp [family, decodeAlu_eq_none_iff]
  next family => simp [family, nOf_eq_zero_iff]
  next family => simp [family]
  next family => simp [family]
  next family => simp [family]
  next family => simp [family]
  next family => simp [family, decodeKey_eq_none_iff]
  next family => simp [family, decodeMisc_eq_none_iff]
  next =>
    simp only [imp_false] at *
    omega

end Sys2Proof
end

section
/-!
PROOF. What an instruction can do, said once (spec/40_step_cycle.md R70, R73): it raises under its row's condition of R151, or
it ends in one state. Then, field by field, what that state shares with the one before (spec/10_state.md R11 to R17).
-/

namespace Sys2Proof.Machine

/-! ### The two ends of an instruction -/

/-- Where the key wait ends (R134, R75): with a key in V[x] at npc, or with nothing changed. -/
def State.finishKeyWait (s : State) (x : Reg) (found : Option Reg) : State :=
  { s with
    v := found.elim s.v fun k => s.v.set x (BitVec.ofNat 8 k.val)
    pc := if found.isSome then s.npc else s.pc }

@[simp] theorem State.finishKeyWait_none (s : State) (x : Reg) : s.finishKeyWait x none = s := rfl

@[simp] theorem State.finishKeyWait_some (s : State) (x k : Reg) :
    s.finishKeyWait x (some k) = s.finishMove x (BitVec.ofNat 8 k.val) := rfl

theorem exec_ldVxK (s : State) (x : Reg) : exec (.ldVxK x) s = .next (s.finishKeyWait x s.firstPressed) := by
  cases hk : s.firstPressed with
  | none => rw [exec_ldVxK_of_none s x hk, State.finishKeyWait_none]
  | some k => rw [exec_ldVxK_of_firstPressed s x hk, State.finishKeyWait_some]

/-- The state in which an instruction ends outside its fault condition. The six with a condition and the key wait are written
out; every other one has a single arm, and its answer is taken. -/
def State.completed (s : State) (i : Instr) : State :=
  match i with
  | .ret => { s with pc := s.stack.get ⟨s.sp.val - 1, by omega⟩, sp := ⟨s.sp.val - 1, by omega⟩ }
  | .call nnn => { s with stack := s.stack.setIfInBounds s.sp.val s.npc, sp := s.sp + 1, pc := zextAddr nnn }
  | .drw x y n => s.finishDraw x y n
  | .ldBVx x => (s.storeBytes s.i.toNat (decimalDigits (s.reg x))).advance
  | .ldMemVx x => (s.storeBytes s.i.toNat (s.regsUpTo x)).advance
  | .ldVxMem x => (s.loadRegsUpTo x).advance
  | .ldVxK x => s.finishKeyWait x s.firstPressed
  | i =>
    match exec i s with
    | .next t => t
    | .fault _ => s
    | .refused _ => s

section Ends

variable {s t : State} {i : Instr}

theorem used_of_ret_no_fault (h : faultOf s .ret = none) : s.sp.val ≠ 0 :=
  fun e => not_of_ite_some_eq_none h (Fin.ext e)

theorem room_of_call_no_fault {nnn : Addr12} (h : faultOf s (.call nnn) = none) : s.sp.val < 16 := by
  have notFull : s.sp.val ≠ 16 := fun e => not_of_ite_some_eq_none h (Fin.ext e)
  omega

theorem exec_of_no_fault (h : faultOf s i = none) : exec i s = .next (s.completed i) := by
  cases i with
  | ret =>
    have top : s.sp.val = s.sp.val - 1 + 1 := (Nat.succ_pred_eq_of_ne_zero (used_of_ret_no_fault h)).symm
    exact exec_ret_of_pop (s.pop_of_entry ⟨s.sp.val - 1, by omega⟩ top)
  | call nnn =>
    have room : s.sp.val < 16 := room_of_call_no_fault h
    have stored : s.stack.set s.sp.val s.npc = s.stack.setIfInBounds s.sp.val s.npc := by
      ext k hk
      rw [Vector.getElem_set, Vector.getElem_setIfInBounds]
    have counted : (⟨s.sp.val + 1, by omega⟩ : Fin 17) = s.sp + 1 :=
      Fin.ext (Fin.val_add_one_of_lt room).symm
    have pushed : s.push s.npc = some { s with stack := s.stack.setIfInBounds s.sp.val s.npc, sp := s.sp + 1 } := by
      rw [s.push_of_room s.npc room, stored, counted]
    exact exec_call_of_push nnn pushed
  | drw x y n =>
    have noFault : ¬(0 < n.val ∧ 4096 ≤ s.i.toNat + n.val - 1) := not_of_ite_some_eq_none h
    exact execDrw_inside s x y n (by omega)
  | ldBVx x => exact exec_ldBVx_inside s x (not_le.mp (not_of_ite_some_eq_none h))
  | ldMemVx x => exact exec_ldMemVx_inside s x (not_le.mp (not_of_ite_some_eq_none h))
  | ldVxMem x => exact exec_ldVxMem_inside s x (not_le.mp (not_of_ite_some_eq_none h))
  | ldVxK x => exact exec_ldVxK s x
  | _ => rfl

/-- SAY ONCE WHAT AN INSTRUCTION CAN DO: raise under its row's condition, or complete. -/
theorem exec_cases (h : exec i s = .next t) :
    (faultOf s i = none ∧ t = s.completed i) ∨
    ∃ k, faultOf s i = some k ∧ t = { s with fault := { kind := some k, pc := s.pc, opcode := encode i } } := by
  cases hk : faultOf s i with
  | none => exact .inl ⟨rfl, Host.Outcome.next.inj (h.symm.trans (exec_of_no_fault hk))⟩
  | some k => exact .inr ⟨k, rfl, Host.Outcome.next.inj (h.symm.trans (exec_of_faultOf_some hk))⟩

/-- A fault leaves everything but FAULT, so what an instruction keeps is what its completion keeps. -/
theorem exec_keeps {α : Type} {f : State → α} (hfault : ∀ r, f { s with fault := r } = f s)
    (hcompleted : f (s.completed i) = f s) (h : exec i s = .next t) : f t = f s := by
  obtain ⟨-, rfl⟩ | ⟨k, -, rfl⟩ := exec_cases h
  · exact hcompleted
  · exact hfault _

theorem exec_answers_next (i : Instr) (s : State) : ∃ t, exec i s = .next t := by
  cases hk : faultOf s i with
  | none => exact ⟨_, exec_of_no_fault hk⟩
  | some k => exact ⟨_, exec_of_faultOf_some hk⟩

end Ends

/-- Settles O19, branch by branch of the step. -/
theorem everyStepAnswersNext : Obligations.EveryStepAnswersNext := by
  unfold Obligations.EveryStepAnswersNext
  intro s
  by_cases running : s.fault.kind = none
  · cases hd : s.fetchDecode with
    | ok i => rw [step_of_ok s running hd]; exact exec_answers_next i s
    | error e => exact ⟨_, step_of_error s running hd⟩
  · exact ⟨s, step_of_halted s running⟩

end Sys2Proof.Machine
end

section
/-!
PROOF. Frames (spec/10_state.md R11 to R17, spec/40_step_cycle.md R73): what the completion of an instruction keeps, field by
field; a fault keeps everything but FAULT.
-/

namespace Sys2Proof.Machine

section CompletedKeeps

variable (s : State) {i : Instr}

theorem State.finishRandom_reg_other {x r : Reg} (nn b : Byte) (h : r ≠ x) : (s.finishRandom x nn b).reg r = s.reg r :=
  s.finishMove_reg_other (b &&& nn) h

theorem State.finishKeyWait_reg_other {x r : Reg} (found : Option Reg) (h : r ≠ x) :
    (s.finishKeyWait x found).reg r = s.reg r := by
  cases found with
  | none => rw [State.finishKeyWait_none]
  | some k => rw [State.finishKeyWait_some, State.finishMove_reg_other _ _ h]

/-- The ending decides: a result alone, a result and the flag, the flag alone, a range, or no register. -/
theorem State.completed_reg {r : Reg} (h : writesReg i r = false) : (s.completed i).reg r = s.reg r := by
  cases i with
  | ldVxNn x | addVxNn x | ldVxVy x | or x | and x | xor x | ldVxDt x =>
    exact s.finishMove_reg_other _ (beq_eq_false_iff_ne.mp h)
  | addVxVy x | sub x | shr x | subn x | shl x =>
    obtain ⟨hx, hf⟩ := Bool.or_eq_false_iff.mp h
    exact s.finishFlag_reg_other _ _ (beq_eq_false_iff_ne.mp hx) (beq_eq_false_iff_ne.mp hf)
  | rnd x nn => exact s.finishRandom_reg_other nn _ (beq_eq_false_iff_ne.mp h)
  | drw x y n => exact s.finishDraw_reg_other x y n (beq_eq_false_iff_ne.mp h)
  | ldVxK x => exact s.finishKeyWait_reg_other _ (beq_eq_false_iff_ne.mp h)
  | ldVxMem x => exact (s.loadRegsUpTo_reg x r).trans (if_neg (of_decide_eq_false h))
  | _ => rfl

theorem State.completed_byteAt {a : Nat} (hB : ∀ x, i = .ldBVx x → ¬(s.i.toNat ≤ a ∧ a < s.i.toNat + 3))
    (hM : ∀ x, i = .ldMemVx x → ¬(s.i.toNat ≤ a ∧ a < s.i.toNat + x.val + 1)) :
    (s.completed i).byteAt a = s.byteAt a := by
  cases i with
  | ldBVx x => exact s.storeBytes_byteAt_outside (hB x rfl)
  | ldMemVx x =>
    refine s.storeBytes_byteAt_outside ?_
    rw [State.regsUpTo_length]
    exact hM x rfl
  | _ => rfl

theorem State.completed_i (hA : ∀ nnn, i ≠ .ldINnn nnn) (hE : ∀ x, i ≠ .addIVx x) (hF : ∀ x, i ≠ .ldFVx x) :
    (s.completed i).i = s.i := by
  cases i with
  | ldINnn nnn => exact absurd rfl (hA nnn)
  | addIVx x => exact absurd rfl (hE x)
  | ldFVx x => exact absurd rfl (hF x)
  | _ => rfl

theorem State.completed_stack (hcall : ∀ nnn, i ≠ .call nnn) (hret : i ≠ .ret) :
    (s.completed i).sp = s.sp ∧ (s.completed i).stack = s.stack := by
  cases i with
  | call nnn => exact absurd rfl (hcall nnn)
  | ret => exact absurd rfl hret
  | _ => exact ⟨rfl, rfl⟩

theorem State.completed_dt (h : ∀ x, i ≠ .ldDtVx x) : (s.completed i).dt = s.dt := by
  cases i with
  | ldDtVx x => exact absurd rfl (h x)
  | _ => rfl

theorem State.completed_st (h : ∀ x, i ≠ .ldStVx x) : (s.completed i).st = s.st := by
  cases i with
  | ldStVx x => exact absurd rfl (h x)
  | _ => rfl

theorem State.completed_key (i : Instr) : (s.completed i).key = s.key := by
  cases i <;> rfl

theorem State.completed_fb (hcls : i ≠ .cls) (hdrw : ∀ x y n, i ≠ .drw x y n) : (s.completed i).fb = s.fb := by
  cases i with
  | cls => exact absurd rfl hcls
  | drw x y n => exact absurd rfl (hdrw x y n)
  | _ => rfl

end CompletedKeeps

/-- Settles O48: the completion keeps the register, and a fault keeps all of them. -/
theorem registerFrame : Obligations.RegisterFrame := by
  unfold Obligations.RegisterFrame
  exact fun i s t h r hr => exec_keeps (f := (·.reg r)) (fun _ => rfl) (s.completed_reg hr) h

/-- Settles O49: the completion keeps the byte unless it is stored to, and a fault keeps memory. -/
theorem memoryFrame : Obligations.MemoryFrame := by
  unfold Obligations.MemoryFrame
  exact fun i s t h a hB hM => exec_keeps (f := (·.byteAt a)) (fun _ => rfl) (s.completed_byteAt hB hM) h

/-- Settles O50: the three writers of I, and the two operations on the stack. -/
theorem indexAndStackFrame : Obligations.IndexAndStackFrame := by
  unfold Obligations.IndexAndStackFrame
  refine fun i s t h => ⟨fun hA hE hF => ?index, fun hcall hret => ?stack⟩
  case index => exact exec_keeps (f := State.i) (fun _ => rfl) (s.completed_i hA hE hF) h
  case stack =>
    obtain ⟨hsp, hstack⟩ := s.completed_stack hcall hret
    exact ⟨exec_keeps (f := State.sp) (fun _ => rfl) hsp h, exec_keeps (f := State.stack) (fun _ => rfl) hstack h⟩

/-- Settles O51: one writer for each timer. -/
theorem timerFrame : Obligations.TimerFrame := by
  unfold Obligations.TimerFrame
  exact fun i s t h => ⟨fun hdt => exec_keeps (f := State.dt) (fun _ => rfl) (s.completed_dt hdt) h,
    fun hst => exec_keeps (f := State.st) (fun _ => rfl) (s.completed_st hst) h⟩

/-- Settles O52: no writer of KEY, two of FB. -/
theorem keypadAndScreenFrame : Obligations.KeypadAndScreenFrame := by
  unfold Obligations.KeypadAndScreenFrame
  exact fun i s t h => ⟨exec_keeps (f := State.key) (fun _ => rfl) (s.completed_key i) h,
    fun hcls hdrw => exec_keeps (f := State.fb) (fun _ => rfl) (s.completed_fb hcls hdrw) h⟩

/-- Settles O53: every completion that writes PC otherwise is excluded, and the key wait is held to its completing arm. -/
theorem sequentialPc : Obligations.SequentialPc := by
  unfold Obligations.SequentialPc
  intro i s t hexec hfault hjump hret hskipNn hskipVy hskipKey hwait
  obtain rfl : s.completed i = t := Host.Outcome.next.inj ((exec_of_no_fault hfault).symm.trans hexec)
  cases i with
  | jp nnn => exact absurd rfl (hjump nnn).1
  | call nnn => exact absurd rfl (hjump nnn).2.1
  | jpV0 nnn => exact absurd rfl (hjump nnn).2.2
  | ret => exact absurd rfl hret
  | seVxNn x nn => exact absurd rfl (hskipNn x nn).1
  | sneVxNn x nn => exact absurd rfl (hskipNn x nn).2
  | seVxVy x y => exact absurd rfl (hskipVy x y).1
  | sneVxVy x y => exact absurd rfl (hskipVy x y).2
  | skp x => exact absurd rfl (hskipKey x).1
  | sknp x => exact absurd rfl (hskipKey x).2
  | ldVxK x =>
    obtain ⟨k, hk⟩ := hwait x rfl
    have found : s.firstPressed.isSome = true := List.find?_isSome.mpr ⟨k, List.mem_finRange k, hk⟩
    exact if_pos found
  | _ => rfl

end Sys2Proof.Machine
end

section
/-!
PROOF. Independence of the environment (spec/10_state.md R15, R16, R20; spec/46_host_operations.md R143, R144): a change of state
that an instruction does not see may be made before it or after it.
-/

namespace Sys2Proof.Machine

section Commutes

variable {s t : State} {i : Instr}

/-- A change commutes with an instruction when it commutes with both its ends and does not touch its fault condition. -/
theorem exec_commutes {change : State → State} (hcondition : faultOf (change s) i = faultOf s i)
    (hraise : ∀ k, raise k (encode i) (change s) =
      .next (change { s with fault := { kind := some k, pc := s.pc, opcode := encode i } }))
    (hcompleted : (change s).completed i = change (s.completed i)) (h : exec i s = .next t) :
    exec i (change s) = .next (change t) := by
  obtain ⟨hnone, rfl⟩ | ⟨k, hk, rfl⟩ := exec_cases h
  · rw [exec_of_no_fault (hcondition.trans hnone), hcompleted]
  · rw [exec_of_faultOf_some (hcondition.trans hk), hraise]

theorem tick_completed (h : ∀ x, i ≠ .ldVxDt x ∧ i ≠ .ldDtVx x ∧ i ≠ .ldStVx x) :
    (tick s).completed i = tick (s.completed i) := by
  cases i with
  | ldVxDt x => exact absurd rfl (h x).1
  | ldDtVx x => exact absurd rfl (h x).2.1
  | ldStVx x => exact absurd rfl (h x).2.2
  | _ => rfl

theorem setKeys_completed (keys : Vector Bool 16) (h : ∀ x, i ≠ .skp x ∧ i ≠ .sknp x ∧ i ≠ .ldVxK x) :
    (setKeys keys s).completed i = setKeys keys (s.completed i) := by
  cases i with
  | skp x => exact absurd rfl (h x).1
  | sknp x => exact absurd rfl (h x).2.1
  | ldVxK x => exact absurd rfl (h x).2.2
  | _ => rfl

/-- Another count of draws, and so other draws to come. -/
def State.withDraws (d : Nat) (s : State) : State := { s with draws := d }

theorem withDraws_completed (d : Nat) (h : ∀ x nn, i ≠ .rnd x nn) :
    (s.withDraws d).completed i = (s.completed i).withDraws d := by
  cases i with
  | rnd x nn => exact absurd rfl (h x nn)
  | _ => rfl

theorem faultOf_congr {u : State} (hsp : u.sp = s.sp) (hi : u.i = s.i) (i : Instr) : faultOf u i = faultOf s i := by
  unfold faultOf
  rw [hsp, hi]

end Commutes

/-- Settles O54: a tick changes no fault condition, and no completion but those of the timer transfers sees it. -/
theorem tickCommutesWithOtherInstructions : Obligations.TickCommutesWithOtherInstructions := by
  unfold Obligations.TickCommutesWithOtherInstructions
  exact fun i s t h => exec_commutes (change := tick) (faultOf_congr rfl rfl i) (fun _ => rfl) (tick_completed h)

/-- Settles O55: new keys change no fault condition, and no completion but those of the keypad sees them. -/
theorem setKeysCommutesWithOtherInstructions : Obligations.SetKeysCommutesWithOtherInstructions := by
  unfold Obligations.SetKeysCommutesWithOtherInstructions
  exact fun i s t keys h =>
    exec_commutes (change := setKeys keys) (faultOf_congr rfl rfl i) (fun _ => rfl) (setKeys_completed keys h)

theorem stepWithDraw_of_halted (r : Byte) {s : State} (h : s.fault.kind ≠ none) : stepWithDraw r s = .next s := by
  rw [stepWithDraw, if_pos (s.halted_iff.mpr h)]

theorem stepWithDraw_of_rnd (r : Byte) {s : State} {x : Reg} {nn : Byte} (hf : s.fault.kind = none)
    (h : s.fetchDecode = .ok (.rnd x nn)) : stepWithDraw r s = .next (s.finishRandom x nn r) := by
  have running : ¬ s.halted = true := mt s.halted_iff.mp (not_not.mpr hf)
  rw [stepWithDraw, if_neg running, h]

theorem stepWithDraw_of_not_rnd (r : Byte) {s : State} (hf : s.fault.kind = none)
    (h : ∀ x nn, s.fetchDecode ≠ .ok (.rnd x nn)) : stepWithDraw r s = step s := by
  have running : ¬ s.halted = true := mt s.halted_iff.mp (not_not.mpr hf)
  rw [stepWithDraw, if_neg running]
  split
  next x nn hd => exact absurd hd (h x nn)
  next => rfl

theorem exec_rnd (s : State) (x : Reg) (nn : Byte) :
    exec (.rnd x nn) s = .next (s.finishRandom x nn (Config.rnd s.draws)) := rfl

theorem step_eq_stepWithDraw (s : State) : step s = stepWithDraw (Config.rnd s.draws) s := by
  by_cases running : s.fault.kind = none
  · by_cases draws : ∃ x nn, s.fetchDecode = .ok (.rnd x nn)
    · obtain ⟨x, nn, hd⟩ := draws
      rw [stepWithDraw_of_rnd _ running hd, step_of_ok s running hd, exec_rnd]
    · exact (stepWithDraw_of_not_rnd _ running fun x nn hd => draws ⟨x, nn, hd⟩).symm
  · rw [step_of_halted s running, stepWithDraw_of_halted _ running]

/-- Settles O20: the count of draws is a change that no other instruction sees. -/
theorem onlyRandomDependsOnTheDraw : Obligations.OnlyRandomDependsOnTheDraw := by
  unfold Obligations.OnlyRandomDependsOnTheDraw
  refine ⟨fun i s t d h => ?others, step_eq_stepWithDraw⟩
  case others =>
    exact exec_commutes (change := State.withDraws d) (faultOf_congr rfl rfl i) (fun _ => rfl) (withDraws_completed d h)

/-- Settles O32: `exec` hands `finishRandom` the next free draw, the step with a draw hands it that one. -/
theorem randomIsTheMaskedDraw : Obligations.RandomIsTheMaskedDraw := by
  unfold Obligations.RandomIsTheMaskedDraw
  refine ⟨fun s x nn => ?free, fun s x nn r running hd => ?given⟩
  case free => exact ⟨_, exec_rnd s x nn, s.finishMove_reg_same _ x, rfl⟩
  case given =>
    exact ⟨_, stepWithDraw_of_rnd r running hd, s.finishMove_reg_same _ x, fun _ => s.finishMove_reg_other _, rfl⟩

end Sys2Proof.Machine
end

section
/-!
PROOF. The invariant of the machine (spec/10_state.md R13, R14; spec/60_exceptions.md R151, R155): each clause for a completed
instruction, the record that a fault leaves, and the other operations.
-/

namespace Sys2Proof.Machine

section Completion

variable {s : State}

/-- The two stores of an instruction that completes end inside memory. -/
theorem State.completed_memory_wf {i : Instr} (h : Memory.wf s.mem) (hfault : faultOf s i = none) :
    Memory.wf (s.completed i).mem := by
  cases i with
  | ldBVx x =>
    have bound : s.i.toNat + 2 < 4096 := not_le.mp (not_of_ite_some_eq_none hfault)
    exact Memory.writeAll_wf _ h bound
  | ldMemVx x =>
    have bound : s.i.toNat + x.val < 4096 := not_le.mp (not_of_ite_some_eq_none hfault)
    refine Memory.writeAll_wf _ h ?_
    rw [State.regsUpTo_length]
    exact bound
  | _ => exact h

theorem State.npc_toNat (h : s.pc.toNat + 1 < 4096) : s.npc.toNat = s.pc.toNat + 2 := by
  rw [State.npc_eq]
  bv_omega

theorem State.npc_le (h : s.pc.toNat + 1 < 4096) : s.npc.toNat ≤ 0x10FE := by
  have := State.npc_toNat h
  omega

theorem State.skipIf_pc_le (taken : Bool) (h : s.pc.toNat + 1 < 4096) : (s.skipIf taken).pc.toNat ≤ 0x10FE := by
  rw [State.skipIf_pc]
  split <;> bv_omega

theorem State.finishKeyWait_pc_le (x : Reg) (found : Option Reg) (h : s.pc.toNat ≤ 0x10FE)
    (inside : s.pc.toNat + 1 < 4096) : (s.finishKeyWait x found).pc.toNat ≤ 0x10FE := by
  cases found with
  | none => exact h
  | some k => exact State.npc_le inside

theorem zextAddr_le (nnn : Addr12) : (zextAddr nnn).toNat ≤ 0x10FE := by
  have := nnn.isLt
  rw [zextAddr_toNat]
  omega

theorem zextAddr_add_zextByte_le (nnn : Addr12) (b : Byte) : (zextAddr nnn + zextByte b).toNat ≤ 0x10FE := by
  have := nnn.isLt
  have := b.isLt
  rw [zextAddr_add_zextByte_toNat]
  omega

theorem State.completed_pc_le {i : Instr} (h : s.Inv) (inside : s.pc.toNat + 1 < 4096) (hfault : faultOf s i = none) :
    (s.completed i).pc.toNat ≤ 0x10FE := by
  cases i with
  | ret =>
    have entry := (h.returns ⟨s.sp.val - 1, by omega⟩ (Nat.sub_one_lt (used_of_ret_no_fault hfault))).2
    exact entry.trans (by decide)
  | jp nnn | call nnn => exact zextAddr_le nnn
  | jpV0 nnn => exact zextAddr_add_zextByte_le nnn (s.reg 0)
  | seVxNn | sneVxNn | seVxVy | sneVxVy | skp | sknp => exact State.skipIf_pc_le _ inside
  | ldVxK x => exact State.finishKeyWait_pc_le x _ h.pcBound inside
  | _ => exact State.npc_le inside

/-- A call adds npc, from 2 to 4096; a return takes an entry away. -/
theorem State.completed_returns {i : Instr} (h : s.Inv) (inside : s.pc.toNat + 1 < 4096) (hfault : faultOf s i = none)
    (k : Fin 16) (hk : k.val < (s.completed i).sp.val) :
    2 ≤ ((s.completed i).stack.get k).toNat ∧ ((s.completed i).stack.get k).toNat ≤ 4096 := by
  cases i with
  | ret => exact h.returns k (Nat.lt_of_lt_of_le hk (Nat.sub_le _ _))
  | call nnn =>
    have room : s.sp.val < 16 := room_of_call_no_fault hfault
    have counted : (s.sp + 1).val = s.sp.val + 1 := Fin.val_add_one_of_lt room
    have below : k.val < s.sp.val + 1 := counted ▸ hk
    have entry : (s.completed (.call nnn)).stack.get k = if s.sp.val = k.val then s.npc else s.stack.get k :=
      Vector.getElem_setIfInBounds k.isLt
    have pushed : s.npc.toNat = s.pc.toNat + 2 := State.npc_toNat inside
    rw [entry]
    split
    · omega
    · exact h.returns k (by omega)
  | _ => exact h.returns k hk

end Completion

section Record

variable {s t : State}

theorem State.faultConsistent_of_running (running : s.fault.kind = none) :
    s.faultConsistent ↔ s.fault.pc = 0 ∧ s.fault.opcode = 0 := by
  rw [State.faultConsistent, running]

/-- The clause reads FAULT, PC, SP and I only. -/
theorem State.faultConsistent_congr (hfault : t.fault = s.fault) (hpc : t.pc = s.pc) (hsp : t.sp = s.sp) (hi : t.i = s.i)
    (h : s.faultConsistent) : t.faultConsistent := by
  have condition : faultOf t = faultOf s := funext (faultOf_congr hsp hi)
  unfold State.faultConsistent
  rw [hfault, hpc, condition]
  exact h

/-- A state that differs in no field the invariant reads. -/
theorem State.Inv.of_same (h : s.Inv) (hmem : t.mem = s.mem) (hpc : t.pc = s.pc) (hstack : t.stack = s.stack)
    (hsp : t.sp = s.sp) (hi : t.i = s.i) (hfault : t.fault = s.fault) : t.Inv where
  memory := hmem ▸ h.memory
  pcBound := hpc ▸ h.pcBound
  returns := by rw [hsp, hstack]; exact h.returns
  faultRecord := State.faultConsistent_congr hfault hpc hsp hi h.faultRecord

/-- A fault leaves all but FAULT, so only the record is to be shown. -/
theorem State.Inv.of_fault (h : s.Inv) {r : FaultRecord} (hr : { s with fault := r }.faultConsistent) :
    { s with fault := r }.Inv where
  memory := h.memory
  pcBound := h.pcBound
  returns := h.returns
  faultRecord := hr

/-- What holds of a completed instruction, with FAULT as clear as before. -/
theorem State.Inv.completed {i : Instr} (h : s.Inv) (running : s.fault.kind = none)
    (inside : s.pc.toNat + 1 < 4096) (hfault : faultOf s i = none) : (s.completed i).Inv where
  memory := State.completed_memory_wf h.memory hfault
  pcBound := State.completed_pc_le h inside hfault
  returns := State.completed_returns h inside hfault
  faultRecord := by
    obtain ⟨t, completes, kept⟩ := exec_of_faultOf_none hfault
    obtain rfl : s.completed i = t := Host.Outcome.next.inj ((exec_of_no_fault hfault).symm.trans completes)
    rw [State.faultConsistent_of_running (kept ▸ running), kept]
    exact (State.faultConsistent_of_running running).mp h.faultRecord

end Record

/-- Settles O57, by the four things a step can do. -/
theorem stepKeepsTheInvariant : Obligations.StepKeepsTheInvariant := by
  unfold Obligations.StepKeepsTheInvariant
  intro s t h hstep
  obtain ⟨-, rfl⟩ | ⟨-, outside, rfl⟩ | ⟨-, -, hd, rfl⟩ | ⟨running, inside, i, hd, hexec⟩ := step_cases s hstep
  · exact h
  · exact h.of_fault ⟨rfl, .inl ⟨rfl, rfl, Nat.le_of_succ_le_succ outside⟩⟩
  · exact h.of_fault ⟨rfl, .inr (.inl ⟨rfl, hd⟩)⟩
  · obtain ⟨hnone, rfl⟩ | ⟨k, hk, rfl⟩ := exec_cases hexec
    · exact h.completed running inside hnone
    · exact h.of_fault ⟨rfl, .inr (.inr ⟨i, decodeWord_encode i, hk⟩)⟩

/-- Settles O56: no cell is listed, PC is 0x200, the stack is empty, and FAULT is clear. -/
theorem resetMeetsTheInvariant : Obligations.ResetMeetsTheInvariant := by
  unfold Obligations.ResetMeetsTheInvariant
  exact {
    memory := Memory.reset_wf
    pcBound := by decide
    returns := fun _ hk => absurd hk (Nat.not_lt_zero _)
    faultRecord := ⟨rfl, rfl⟩ }

/-- Settles O2: `construct` writes every field but the count of draws. -/
theorem constructResetsEverything : Obligations.ConstructResetsEverything := by
  unfold Obligations.ConstructResetsEverything
  exact fun _ => rfl

section Operations

variable {s t : State}

theorem construct_inv (s : State) : (construct s).Inv := resetMeetsTheInvariant.of_same rfl rfl rfl rfl rfl rfl

theorem load_inv (rom : List Byte) (h : s.Inv) : (load rom s).1.Inv := by
  by_cases fits : rom.length ≤ 3584
  · rw [load_of_fits s fits]
    have room : 0x200 + rom.length ≤ Config.memSize := Nat.add_le_add_left fits 0x200
    obtain ⟨hmem, hpc, hreturns, hrecord⟩ := construct_inv s
    exact ⟨Memory.writeAll_wf rom hmem room, hpc, hreturns, hrecord⟩
  · rw [load_of_too_large s (not_le.mp fits)]
    exact h

theorem perform_keeps_inv {op : HostOp} (h : s.Inv) (hop : perform op s = .next t) : t.Inv := by
  cases op with
  | construct => cases hop; exact construct_inv s
  | load rom => cases hop; exact load_inv rom h
  | step => exact stepKeepsTheInvariant s t h hop
  | setKeys keys => cases hop; exact h.of_same rfl rfl rfl rfl rfl rfl
  | tick => cases hop; exact h.of_same rfl rfl rfl rfl rfl rfl
  | getFramebuffer => cases hop; exact h

theorem performAll_cons_eq_next {op : HostOp} {ops : List HostOp} (h : performAll (op :: ops) s = .next t) :
    ∃ u, perform op s = .next u ∧ performAll ops u = .next t := by
  rw [performAll] at h
  split at h
  next u hop => exact ⟨u, hop, h⟩
  all_goals cases h

end Operations

/-- Settles O58, by induction on the operations. -/
theorem everyInterleavingKeepsTheInvariant : Obligations.EveryInterleavingKeepsTheInvariant := by
  unfold Obligations.EveryInterleavingKeepsTheInvariant
  intro ops
  induction ops with
  | nil => intro s t h hrun; cases hrun; exact h
  | cons op ops ih =>
    intro s t h hrun
    obtain ⟨u, hop, hrest⟩ := performAll_cons_eq_next hrun
    exact ih u t (perform_keeps_inv h hop) hrest

end Sys2Proof.Machine
end

section
/-!
PROOF. What one step does where the word at PC is known (spec/40_step_cycle.md R70, R75): the decoded instruction, the placed
word, the jump to itself and the unresolved wait.
-/

namespace Sys2Proof.Machine

/-- Settles O14: the two bytes at PC are the fetched word. -/
theorem stepRunsTheDecodedInstruction : Obligations.StepRunsTheDecodedInstruction := by
  unfold Obligations.StepRunsTheDecodedInstruction
  intro s i rest running inside hd
  have word : decodeWord s.fetchedWord = some i := decodeWord_of_decode hd
  exact step_of_decoded running (by omega) word

section Placed

variable (s : State)

@[simp] theorem State.readyToFetch_fault : s.readyToFetch.fault = FaultRecord.clear := rfl

theorem State.readyToFetch_fetchable : s.readyToFetch.pc.toNat + 1 < 4096 := by
  change (if s.fetchable then s.pc else Config.progBase).toNat + 1 < 4096
  split
  next h => exact s.fetchable_iff.mp h
  next => decide

/-- The word that `tableBytes` lays out. -/
def tableWord (w : Nat) : Word := BitVec.ofNat 16 (w % 2 ^ 16)

theorem tableBytes_eq (w : Nat) : tableBytes 16 w = [highByte (tableWord w), lowByte (tableWord w)] := rfl

theorem decodeTableWord_eq (w : Nat) : decodeTableWord 16 w = decodeWord (tableWord w) := by
  rw [decodeTableWord, tableBytes_eq]
  cases hd : decodeWord (tableWord w) <;> simp only [decode, wordOfBytes_of_word, hd]

/-- The two bytes stored at PC are fetched as one word (R32, R50). -/
theorem State.withFetchWord_fetchedWord (w : Nat) : (s.withFetchWord 16 w).fetchedWord = tableWord w := by
  have high : (s.withFetchWord 16 w).byteAt s.readyToFetch.pc.toNat = highByte (tableWord w) :=
    s.readyToFetch.storeBytes_byteAt_inside (k := 0) Nat.zero_lt_two
  have low : (s.withFetchWord 16 w).byteAt (s.readyToFetch.pc.toNat + 1) = lowByte (tableWord w) :=
    s.readyToFetch.storeBytes_byteAt_inside (k := 1) Nat.one_lt_two
  change wordOfBytes ((s.withFetchWord 16 w).byteAt s.readyToFetch.pc.toNat)
    ((s.withFetchWord 16 w).byteAt (s.readyToFetch.pc.toNat + 1)) = _
  rw [high, low, wordOfBytes_of_word]

end Placed

/-- Settles O15: the placed word is the fetched word, and nothing inhibits the step. -/
theorem placedWordRunsNext : Obligations.PlacedWordRunsNext := by
  unfold Obligations.PlacedWordRunsNext
  intro s w i hd
  rw [decodeTableWord_eq] at hd
  refine step_of_decoded ?running ?inside ?word
  case running => rfl
  case inside => exact s.readyToFetch_fetchable
  case word => rw [s.withFetchWord_fetchedWord, hd]

/-- Settles O25: a halted core stays, and a running one writes to PC what it holds. -/
theorem jumpToItselfIsAFixedPoint : Obligations.JumpToItselfIsAFixedPoint := by
  unfold Obligations.JumpToItselfIsAFixedPoint
  intro s nnn hd target
  by_cases running : s.fault.kind = none
  · have stays : s.setPc (zextAddr nnn) = s := congrArg s.setPc target
    rw [step_of_ok s running hd, exec_jp, stays]
  · exact step_of_halted s running

section KeyWait

variable {s : State} {x : Reg}

theorem step_of_unresolved_wait (running : s.fault.kind = none) (hd : s.fetchDecode = .ok (.ldVxK x))
    (noKey : ∀ k, s.pressed k = false) : step s = .next s := by
  rw [step_of_ok s running hd, exec_ldVxK, s.firstPressed_eq_none noKey, State.finishKeyWait_none]

theorem State.firstPressed_of_pressed {k : Reg} (h : s.pressed k = true) : ∃ j, s.firstPressed = some j :=
  Option.isSome_iff_exists.mp (List.find?_isSome.mpr ⟨k, List.mem_finRange k, h⟩)

theorem step_of_resolved_wait (running : s.fault.kind = none) (hd : s.fetchDecode = .ok (.ldVxK x)) {k : Reg}
    (hk : s.pressed k = true) : ∃ t, step s = .next t ∧ t.pc = s.pc + 2 := by
  obtain ⟨j, found⟩ := State.firstPressed_of_pressed hk
  exact ⟨_, (step_of_ok s running hd).trans (exec_ldVxK_of_firstPressed s x found), rfl⟩

@[simp] theorem tick_fetchDecode (s : State) : (tick s).fetchDecode = s.fetchDecode := rfl

@[simp] theorem setKeys_fetchDecode (keys : Vector Bool 16) (s : State) : (setKeys keys s).fetchDecode = s.fetchDecode := rfl

end KeyWait

/-- Settles O46: neither a tick nor new keys change the instruction at PC. -/
theorem keyWaitLeavesTheState : Obligations.KeyWaitLeavesTheState := by
  unfold Obligations.KeyWaitLeavesTheState
  intro s x running hd noKey
  exact ⟨step_of_unresolved_wait running hd noKey,
    step_of_unresolved_wait (s := tick s) running ((tick_fetchDecode s).trans hd) noKey,
    fun keys k hk => step_of_resolved_wait (s := setKeys keys s) running ((setKeys_fetchDecode keys s).trans hd)
      ((setKeys_pressed s keys k).trans hk)⟩

end Sys2Proof.Machine
end

section
/-!
PROOF. Pairs of instructions and the memory they share (spec/41_control_flow.md R89; spec/20_memory.md R39, R42): a call and its
return, a store and the load or the fetch that reads it back; two canonical memories that read the same.
-/

namespace Sys2Proof.Machine

/-- Settles O23: the entry that the call writes is the one that the return pops. -/
theorem returnMatchesCall : Obligations.ReturnMatchesCall := by
  unfold Obligations.ReturnMatchesCall
  intro s t u nnn room hcall hsp hstack
  obtain ⟨t', hcall', -, hsp', pushed, -⟩ := callPushesOrOverflows.1 s nnn ⟨s.sp.val, room⟩ rfl
  obtain rfl : t = t' := Host.Outcome.next.inj (hcall.symm.trans hcall')
  obtain ⟨w, hret, hpc, hspw, hw⟩ := retPopsOrUnderflows.1 u ⟨s.sp.val, room⟩ (hsp ▸ hsp')
  refine ⟨w, hret, ?pc, Fin.ext hspw, ?v, ?i⟩
  case pc => rw [hpc, hstack, pushed]
  case v => rw [hw]
  case i => rw [hw]

theorem State.byteAt_congr {s t : State} (h : t.mem = s.mem) (a : Nat) : t.byteAt a = s.byteAt a := by
  rw [State.byteAt, State.byteAt, h]

/-- Settles O37: the load reads the addresses that the store wrote. -/
theorem loadAfterStoreGivesTheRegisters : Obligations.LoadAfterStoreGivesTheRegisters := by
  unfold Obligations.LoadAfterStoreGivesTheRegisters
  intro s t u x inside hstore hi hmem
  obtain ⟨t', hstore', stored, -⟩ := (registerRangeIsStored s x).1 inside
  obtain rfl : t = t' := Host.Outcome.next.inj (hstore.symm.trans hstore')
  obtain ⟨w, hload, loaded, -⟩ := (registerRangeIsLoaded u x).1 (hi ▸ inside)
  refine ⟨w, hload, fun k hk => ?_⟩
  rw [loaded k hk, State.byteAt_congr hmem, hi, stored k hk]

section Fetched

variable {u : State} {a : Nat}

/-- The two halves of the fetched word are the bytes at PC and PC + 1 (R32). -/
theorem State.fetchedWord_high : u.fetchedWord.toNat / 256 = (u.byteAt u.pc.toNat).toNat := by
  have := (u.byteAt (u.pc.toNat + 1)).isLt
  rw [State.fetchedWord, wordOfBytes_toNat]
  omega

theorem State.fetchedWord_low : u.fetchedWord.toNat % 256 = (u.byteAt (u.pc.toNat + 1)).toNat := by
  have := (u.byteAt (u.pc.toNat + 1)).isLt
  rw [State.fetchedWord, wordOfBytes_toNat]
  omega

/-- A byte of memory is fetched at its address as the first byte and one address below as the second (R42). -/
theorem State.byteAt_is_fetched {value : Nat} (h : (u.byteAt a).toNat = value) :
    (u.pc.toNat = a → u.fetchedWord.toNat / 256 = value) ∧ (u.pc.toNat + 1 = a → u.fetchedWord.toNat % 256 = value) := by
  refine ⟨fun first => ?_, fun second => ?_⟩
  · rw [State.fetchedWord_high, first, h]
  · rw [State.fetchedWord_low, second, h]

end Fetched

/-- Settles O38: what the two stores leave at each address is what a fetch there reads. -/
theorem storedBytesAreFetched : Obligations.StoredBytesAreFetched := by
  unfold Obligations.StoredBytesAreFetched
  refine ⟨fun s t u x k inside hstore hk hmem => ?range, fun s t u x k digit inside hstore hmem hdigit => ?digits⟩
  case range =>
    obtain ⟨t', hstore', stored, -⟩ := (registerRangeIsStored s x).1 inside
    obtain rfl : t = t' := Host.Outcome.next.inj (hstore.symm.trans hstore')
    refine State.byteAt_is_fetched ?_
    rw [State.byteAt_congr hmem, stored k hk]
  case digits =>
    obtain ⟨t', hstore', hundreds, tens, units, -⟩ := (decimalDigitsAreStored s x).1 inside
    obtain rfl : t = t' := Host.Outcome.next.inj (hstore.symm.trans hstore')
    refine State.byteAt_is_fetched ?_
    rw [State.byteAt_congr hmem]
    obtain ⟨rfl, rfl⟩ | ⟨rfl, rfl⟩ | ⟨rfl, rfl⟩ := hdigit
    · exact hundreds
    · exact tens
    · exact units

/-- Addresses rise along the list, so the first cell of an address is its only one. -/
theorem Memory.read_of_mem {m : List Host.Cell} (h : m.Pairwise fun c d => c.1 < d.1) {c : Host.Cell} (hc : c ∈ m) :
    Memory.read m c.1 = c.2 := by
  induction m with
  | nil => cases hc
  | cons d m ih =>
    obtain ⟨hd, hm⟩ := List.pairwise_cons.mp h
    rw [Memory.read_cons]
    rcases List.mem_cons.mp hc with rfl | hc
    · exact if_pos rfl
    · rw [if_neg (hd c hc).ne, ih hm hc]

/-- In the canonical form the cells are exactly the addresses that do not read as their reset contents. -/
theorem Memory.mem_iff_read {m : List Host.Cell} (h : Memory.wf m) (c : Host.Cell) :
    c ∈ m ↔ Memory.read m c.1 = c.2 ∧ c.2 ≠ Memory.unlisted c.1 := by
  obtain ⟨rising, listed⟩ := h
  refine ⟨fun hc => ⟨Memory.read_of_mem rising hc, (listed c hc).2⟩, fun ⟨hread, hne⟩ => ?_⟩
  by_contra absent
  have noCell : ∀ d ∈ m, d.1 ≠ c.1 := by
    intro d hd e
    have value : d.2 = c.2 := by rw [← Memory.read_of_mem rising hd, e, hread]
    exact absent (Prod.ext e value ▸ hd)
  exact hne (hread.symm.trans (Memory.read_of_absent noCell))

/-- Settles O40: the same reads give the same cells, and rising lists with the same cells are equal. -/
theorem canonicalMemoryIsUnique : Obligations.CanonicalMemoryIsUnique := by
  unfold Obligations.CanonicalMemoryIsUnique
  intro m m' h h' hread
  have cells (c : Host.Cell) : c ∈ m ↔ c ∈ m' := by
    rw [Memory.mem_iff_read h, Memory.mem_iff_read h', hread]
  have irreflexive : Std.Irrefl fun c d : Host.Cell => c.1 < d.1 := ⟨fun c => lt_irrefl c.1⟩
  exact h.1.eq_of_mem_iff h'.1 cells

end Sys2Proof.Machine
end

section
/-!
PROOF. Two identical draws (spec/44_display.md R122 (f), R123): the same bits land both times, so they cancel, and each sprite
bit 1 lands on some pixel.
-/

namespace Sys2Proof.Machine

/-! ### A sprite bit 1 lands somewhere -/

theorem byte_eq_zero_of_bits {b : Byte} (h : ∀ j < 8, b.getLsbD (7 - j) = false) : b = 0 := by
  refine BitVec.eq_of_getLsbD_eq fun k hk => ?_
  have place : 7 - (7 - k) = k := by omega
  have bit : b.getLsbD k = false := place ▸ h (7 - k) (by omega)
  exact bit.trans BitVec.getLsbD_zero.symm

theorem byte_ne_zero_iff (b : Byte) : b ≠ 0 ↔ ∃ j < 8, b.getLsbD (7 - j) = true := by
  constructor
  · intro h
    by_contra noBit
    exact h (byte_eq_zero_of_bits fun j hj => eq_false_of_ne_true fun hbit => noBit ⟨j, hj, hbit⟩)
  · rintro ⟨j, -, hbit⟩ rfl
    exact Bool.false_ne_true (BitVec.getLsbD_zero.symm.trans hbit)

theorem exists_rowBit_iff (x0 : Nat) (b : Byte) : (∃ col, rowBit x0 b col = true) ↔ b ≠ 0 := by
  rw [byte_ne_zero_iff]
  constructor
  · rintro ⟨col, h⟩
    rw [← any_landing, List.any_eq_true] at h
    obtain ⟨j, hj, hbit⟩ := h
    exact ⟨j, List.mem_range.mp hj, (Bool.and_eq_true_iff.mp hbit).2⟩
  · rintro ⟨j, hj, hbit⟩
    refine ⟨landing x0 j, ?_⟩
    rw [← any_landing, List.any_eq_true]
    exact ⟨j, List.mem_range.mpr hj, by rw [decide_eq_true rfl, hbit]; rfl⟩

/-- Row `k` of a sprite lands on the screen row that is `k` below row `y0`, modulo 32. -/
theorem rowOffset_ofNat (y0 : Nat) {k : Nat} (h : k < 32) : rowOffset y0 (Fin.ofNat 32 (y0 + k)) = k := by
  change ((y0 + k) % 32 + 32 - y0 % 32) % 32 = k
  omega

theorem exists_spriteBitAt_iff (x0 y0 : Nat) {bytes : List Byte} (h : bytes.length < 32) :
    (∃ row col, spriteBitAt x0 y0 bytes row col = true) ↔ ∃ k < bytes.length, bytes.getD k 0 ≠ 0 := by
  simp only [spriteBitAt_eq, exists_rowBit_iff]
  constructor
  · rintro ⟨row, hbyte⟩
    refine ⟨rowOffset y0 row, ?_, hbyte⟩
    by_contra past
    exact hbyte (List.getD_eq_default bytes 0 (not_lt.mp past))
  · rintro ⟨k, hk, hbyte⟩
    exact ⟨Fin.ofNat 32 (y0 + k), by rw [rowOffset_ofNat y0 (hk.trans h)]; exact hbyte⟩

/-! ### The second draw -/

section Twice

variable (s : State) (x y : Reg) (n : Height)

theorem State.exists_landingBit_iff :
    (∃ row col, s.landingBit x y n row col = true) ↔ ∃ k < n.val, s.byteAt (s.i.toNat + k) ≠ 0 := by
  have length : (s.spriteBytes n).length = n.val := Memory.readAll_length s.mem s.i.toNat n.val
  have byte {k : Nat} (hk : k < n.val) : (s.spriteBytes n).getD k 0 = s.byteAt (s.i.toNat + k) :=
    Memory.readAll_getD s.mem s.i.toNat hk
  have sprite := exists_spriteBitAt_iff (s.reg x).toNat (s.reg y).toNat (s.spriteBytes_length n)
  rw [length] at sprite
  refine sprite.trans (exists_congr fun k => and_congr_right fun hk => ?_)
  rw [byte hk]

/-- With neither origin register VF, the first draw moves no bit of the second. -/
theorem State.finishDraw_landingBit (hx : x ≠ 15) (hy : y ≠ 15) (row : Fin 32) (col : Fin 64) :
    (s.finishDraw x y n).landingBit x y n row col = s.landingBit x y n row col := by
  rw [State.landingBit, s.finishDraw_reg_other x y n hx, s.finishDraw_reg_other x y n hy]
  rfl

theorem State.finishDraw_twice_pixel (hx : x ≠ 15) (hy : y ≠ 15) (row : Fin 32) (col : Fin 64) :
    ((s.finishDraw x y n).finishDraw x y n).pixel row col = s.pixel row col := by
  rw [State.finishDraw_pixel, State.finishDraw_pixel, s.finishDraw_landingBit x y n hx hy, Bool.xor_assoc, Bool.xor_self,
    Bool.xor_false]

theorem State.finishDraw_reg_flag_eq_one_iff : (s.finishDraw x y n).reg flagReg = 1 ↔ s.Collides x y n := by
  refine ⟨fun h => ?_, s.finishDraw_reg_flag_of_collides x y n⟩
  by_contra noHit
  rw [s.finishDraw_reg_flag_of_not_collides x y n noHit] at h
  exact absurd h (by decide)

/-- On the screen that the first draw leaves of a blank one, the pixels that are on are those where a bit landed. -/
theorem State.finishDraw_collides_iff (hx : x ≠ 15) (hy : y ≠ 15) (blank : ∀ row col, s.pixel row col = false) :
    (s.finishDraw x y n).Collides x y n ↔ ∃ row col, s.landingBit x y n row col = true := by
  simp only [State.Collides, State.finishDraw_pixel, blank, s.finishDraw_landingBit x y n hx hy, Bool.false_xor, and_self]

end Twice

/-- Settles O43: both draws complete, the bits of the second cancel the first's, and its hits are the bits that landed. -/
theorem drawTwiceRestoresTheScreen : Obligations.DrawTwiceRestoresTheScreen := by
  unfold Obligations.DrawTwiceRestoresTheScreen
  intro s t u x y n hx hy inside first second
  have bound : 0 < n.val → s.i.toNat + (n.val - 1) < 4096 := by omega
  obtain rfl : s.finishDraw x y n = t := Host.Outcome.next.inj ((execDrw_inside s x y n bound).symm.trans first)
  obtain rfl : (s.finishDraw x y n).finishDraw x y n = u :=
    Host.Outcome.next.inj ((execDrw_inside (s.finishDraw x y n) x y n bound).symm.trans second)
  refine ⟨s.finishDraw_twice_pixel x y n hx hy, fun blank => ?collision⟩
  case collision =>
    rw [State.finishDraw_reg_flag_eq_one_iff, s.finishDraw_collides_iff x y n hx hy blank, State.exists_landingBit_iff]

end Sys2Proof.Machine
end

section
/-!
PROOF. The signal-level reading (spec/46_host_operations.md R147): the operation that a period performs, and the state's outputs,
where `fb_out` is the rows side by side.
-/

namespace Sys2Proof.Machine

theorem clockState_eq (inp : Inputs) (s : State) : clockState inp s =
    if inp.resetReq then .next (construct s)
    else if inp.loadReq then .next (load inp.rom s).1
    else if inp.keysReq then .next (setKeys (keysOfBits inp.keysIn) s)
    else if inp.tickReq then .next (tick s)
    else if inp.stepReq then stepWithDraw inp.rndIn s
    else .next s := by
  unfold clockState Inputs.selected
  split_ifs <;> rfl

theorem keysOfBits_get (bits : BitVec 16) (k : Reg) : (keysOfBits bits).get k = bits.getLsbD k.val := by
  rw [keysOfBits, Vector.get_eq_getElem, Vector.getElem_ofFn]

section LoadError

variable (rom : List Byte) (s : State)

theorem load_result_iff : (load rom s).2 = .romTooLarge ↔ 3584 < rom.length := by
  by_cases fits : rom.length ≤ 3584
  · rw [load_of_fits s fits]
    exact iff_of_false nofun (not_lt.mpr fits)
  · rw [load_of_too_large s (not_le.mp fits)]
    exact iff_of_true rfl (not_le.mp fits)

theorem clockLoadError_iff (inp : Inputs) :
    clockLoadError inp s = true ↔ inp.resetReq = false ∧ inp.loadReq = true ∧ 3584 < inp.rom.length := by
  unfold clockLoadError Inputs.selected
  split_ifs with reset loads
  case pos => simp [reset]
  case pos => simp [reset, loads, load_result_iff]
  all_goals simp [loads]

end LoadError

section Picture

/-- A bit of an OR over rows is on when it is on in one of them. -/
theorem foldl_or_getLsbD {α : Type} {w : Nat} (f : α → BitVec w) (rows : List α) (acc : BitVec w) (k : Nat) :
    (rows.foldl (fun acc row => acc ||| f row) acc).getLsbD k =
      (acc.getLsbD k || rows.any fun row => (f row).getLsbD k) := by
  induction rows generalizing acc with
  | nil => simp
  | cons row rows ih => rw [List.foldl_cons, ih, BitVec.getLsbD_or, List.any_cons, Bool.or_assoc]

/-- Row `r` occupies the 64 bits from `64 * r`. -/
theorem placedRow_getLsbD (bits : BitVec 64) (r row : Fin 32) (col : Fin 64) :
    (bits.setWidth 2048 <<< (64 * r.val)).getLsbD (row.val * 64 + col.val) = (decide (r = row) && bits.getLsbD col.val) := by
  rw [BitVec.getLsbD_shiftLeft, BitVec.getLsbD_setWidth]
  obtain lower | rfl | higher := lt_trichotomy r row
  · have past : 64 ≤ row.val * 64 + col.val - 64 * r.val := by omega
    rw [BitVec.getLsbD_of_ge _ _ past, decide_eq_false lower.ne]
    simp
  · have column : r.val * 64 + col.val - 64 * r.val = col.val := by omega
    have notBefore : ¬ r.val * 64 + col.val < 64 * r.val := by omega
    have inside : r.val * 64 + col.val < 2048 := by omega
    have inside' : col.val < 2048 := by omega
    simp [column, notBefore, inside, inside']
  · have before : row.val * 64 + col.val < 64 * r.val := by omega
    rw [decide_eq_true before, decide_eq_false higher.ne']
    simp

theorem framebufferBits_getLsbD (fb : Framebuffer) (row : Fin 32) (col : Fin 64) :
    (framebufferBits fb).getLsbD (row.val * 64 + col.val) = pixelOf fb row col := by
  rw [framebufferBits, foldl_or_getLsbD]
  simp only [placedRow_getLsbD]
  have own : ((List.finRange 32).any fun r => decide (r = row) && (fb.get r).getLsbD col.val) =
      (fb.get row).getLsbD col.val := by
    rw [Bool.eq_iff_iff, List.any_eq_true]
    simp
  exact (congrArg₂ or BitVec.getLsbD_zero own).trans (Bool.false_or _)

end Picture

/-- Settles O7: the period's operation by priority, and the outputs of the state it ends in. -/
theorem signalLevelReading : Obligations.SignalLevelReading := by
  unfold Obligations.SignalLevelReading
  refine ⟨clockState_eq, keysOfBits_get, fun inp s t h => ?outputs, fun _ s => framebufferBits_getLsbD s.fb⟩
  case outputs =>
    refine ⟨outputsOf (clockLoadError inp s) t, ?clock, framebufferBits_getLsbD t.fb, rfl, rfl, rfl,
      clockLoadError_iff s inp⟩
    rw [clock, h]

end Sys2Proof.Machine
end
